-- ==== Sys2Proof/Word.lean ====
section
/-! DEFINITION. The word types of the block (spec 00_scope.md R12, R13; 30_encoding.md R70). -/

namespace Sys2Proof

/-- An unsigned 8-bit value (R12). -/
abbrev Byte := BitVec 8

/-- A 16-bit bus address, the spec's `Addr16` (R12, R50). -/
abbrev Addr := BitVec 16

/-- An unsigned 16-bit value, the spec's `UInt16` (R12). -/
abbrev Word := BitVec 16

/-- A command word `op ‖ A ‖ B` (R70). -/
abbrev Command := BitVec 40

/-- A string: "a finite sequence of bytes" (R13). -/
abbrev Text := List Byte

end Sys2Proof
end

