-- ==== Sys2Proof/Syntax.lean ====
section
/-! DEFINITION. The commands of the block (30_encoding.md R72), one constructor per row of spec/opcode_table.json,
and the shapes decoding and assembling work with. -/

namespace Sys2Proof

/-- The mnemonics of R72, in the table's order. -/
inductive Mnemonic where
  | rd | wr | cload | cunload | hdec | hchk | romsz | ramsz | tname | pname
  | hcadd8 | cadd8 | hcsub8 | csub8 | hcadd16 | cadd16 | hcsub16 | csub16 | sext8
deriving DecidableEq, Repr

/-- A command with its operands, at the widths R73 gives them. -/
inductive Instr where
  | rd (addr : Addr)
  | wr (addr : Addr) (data : Byte)
  | cload
  | cunload
  | hdec
  | hchk
  | romsz (code : Byte)
  | ramsz (code : Byte)
  | tname (code : Byte)
  | pname (license : Word) (isOld : Bool)
  | hcadd8 (a b : Byte)
  | cadd8 (a b : Byte)
  | hcsub8 (a b : Byte)
  | csub8 (a b : Byte)
  | hcadd16 (a b : Word)
  | cadd16 (a b : Word)
  | hcsub16 (a b : Word)
  | csub16 (a b : Word)
  | sext8 (v : Byte)
deriving DecidableEq, Repr

/-- The row of R72 a command belongs to. -/
def Instr.mnemonic : Instr → Mnemonic
  | .rd _ => .rd
  | .wr _ _ => .wr
  | .cload => .cload
  | .cunload => .cunload
  | .hdec => .hdec
  | .hchk => .hchk
  | .romsz _ => .romsz
  | .ramsz _ => .ramsz
  | .tname _ => .tname
  | .pname _ _ => .pname
  | .hcadd8 _ _ => .hcadd8
  | .cadd8 _ _ => .cadd8
  | .hcsub8 _ _ => .hcsub8
  | .csub8 _ _ => .csub8
  | .hcadd16 _ _ => .hcadd16
  | .cadd16 _ _ => .cadd16
  | .hcsub16 _ _ => .hcsub16
  | .csub16 _ _ => .csub16
  | .sext8 _ => .sext8

/-- The operands of a command as numbers, in the order of R72's "operands used" column (R78). -/
def Instr.operands : Instr → List Nat
  | .rd addr => [addr.toNat]
  | .wr addr data => [addr.toNat, data.toNat]
  | .cload | .cunload | .hdec | .hchk => []
  | .romsz code | .ramsz code | .tname code => [code.toNat]
  | .pname license isOld => [license.toNat, if isOld then 1 else 0]
  | .hcadd8 a b | .cadd8 a b | .hcsub8 a b | .csub8 a b => [a.toNat, b.toNat]
  | .hcadd16 a b | .cadd16 a b | .hcsub16 a b | .csub16 a b => [a.toNat, b.toNat]
  | .sext8 v => [v.toNat]

/-- Every mnemonic, in the order of R72. -/
def Mnemonic.all : List Mnemonic :=
  [.rd, .wr, .cload, .cunload, .hdec, .hchk, .romsz, .ramsz, .tname, .pname,
   .hcadd8, .cadd8, .hcsub8, .csub8, .hcadd16, .cadd16, .hcsub16, .csub16, .sext8]

/-- Why a command word has no meaning (R74, R75). -/
inductive DecodeError where
  /-- The code is not in R72's table (R75). -/
  | unassignedOpcode (op : Byte)
  /-- An operand bit of R72's "must be zero" column is 1 (R74). -/
  | reservedBits (m : Mnemonic)
deriving DecidableEq, Repr

/-- A row of spec/opcode_table.json: the words `w` with `w &&& mask = pattern`. -/
structure OpcodeRow where
  mnemonic : Mnemonic
  pattern : Command
  mask : Command
deriving DecidableEq, Repr

/-- The operand fields of R73, as the assembler fills them. -/
inductive OperandField where
  | word16
  | byte
  | bit
deriving DecidableEq, Repr

/-- A line of assembly once its numbers are read (R78): operands of any size, not yet checked. -/
structure Line where
  mnemonic : Mnemonic
  operands : List Nat
deriving DecidableEq, Repr

/-- Why a line does not assemble (R78). -/
inductive AsmError where
  /-- The first word is no mnemonic of R72. -/
  | unknownMnemonic
  /-- An operand is neither decimal nor `0x` hexadecimal. -/
  | badNumber
  /-- The number of operands is wrong, or one does not fit its field. -/
  | badOperands
deriving DecidableEq, Repr

end Sys2Proof
end

