-- ==== Sys2Proof/WellFormed.lean ====
section
/-! DEFINITION. When a line of assembly stands for a command (30_encoding.md R78): the operand count is that of the
row and every operand fits its field. An `Instr` needs no check of its own: its fields have the widths of R73, so
every value of the type is well formed. -/

namespace Sys2Proof

/-- The operands of each row, in the order of R72's "operands used" column (R73). -/
def Mnemonic.fields : Mnemonic → List OperandField
  | .rd => [.word16]
  | .wr => [.word16, .byte]
  | .cload | .cunload | .hdec | .hchk => []
  | .romsz | .ramsz | .tname => [.byte]
  | .pname => [.word16, .bit]
  | .hcadd8 | .cadd8 | .hcsub8 | .csub8 => [.byte, .byte]
  | .hcadd16 | .cadd16 | .hcsub16 | .csub16 => [.word16, .word16]
  | .sext8 => [.byte]

/-- "An address above 0xFFFF, a byte above 0xFF, or `is_old` other than 0 or 1" does not fit (R78). -/
def OperandField.fits : OperandField → Nat → Bool
  | .word16, n => n ≤ 0xFFFF
  | .byte, n => n ≤ 0xFF
  | .bit, n => n ≤ 1

/-- As many operands as fields, each fitting its own. -/
def operandsFit : List OperandField → List Nat → Bool
  | [], [] => true
  | f :: fs, n :: ns => f.fits n && operandsFit fs ns
  | [], _ :: _ => false
  | _ :: _, [] => false

/-- A line that R78 assembles. -/
def Line.wf (l : Line) : Bool := operandsFit l.mnemonic.fields l.operands

end Sys2Proof
end

