-- ==== Sys2Proof/Decode.lean ====
section
/-! DEFINITION. The command word (30_encoding.md R70–R76): a total decoder that rejects by name, the encoder, and
spec/opcode_table.json's rows. The encoding is the spec's own choice (D2, D3). -/

namespace Sys2Proof

/-- `op = w[39:32]` (R71). -/
def opField (w : Command) : Byte := w.extractLsb' 32 8

/-- `A = w[31:16]` (R71). -/
def fieldA (w : Command) : Word := w.extractLsb' 16 16

/-- `B = w[15:0]` (R71). -/
def fieldB (w : Command) : Word := w.extractLsb' 0 16

/-- The low byte of an operand field, `A[7:0]` or `B[7:0]` (R72). -/
def lowByte (f : Word) : Byte := f.extractLsb' 0 8

/-- The `op` column of R72. -/
def Mnemonic.op : Mnemonic → Byte
  | .rd => 0x00
  | .wr => 0x01
  | .cload => 0x10
  | .cunload => 0x11
  | .hdec => 0x20
  | .hchk => 0x21
  | .romsz => 0x22
  | .ramsz => 0x23
  | .tname => 0x24
  | .pname => 0x25
  | .hcadd8 => 0x30
  | .cadd8 => 0x31
  | .hcsub8 => 0x32
  | .csub8 => 0x33
  | .hcadd16 => 0x34
  | .cadd16 => 0x35
  | .hcsub16 => 0x36
  | .csub16 => 0x37
  | .sext8 => 0x38

/-- The bits of `A` in the "must be zero" column of R72. -/
def Mnemonic.zeroA : Mnemonic → Word
  | .rd | .wr | .pname | .hcadd16 | .cadd16 | .hcsub16 | .csub16 => 0x0000
  | .cload | .cunload | .hdec | .hchk => 0xFFFF
  | .romsz | .ramsz | .tname | .hcadd8 | .cadd8 | .hcsub8 | .csub8 | .sext8 => 0xFF00

/-- The bits of `B` in the "must be zero" column of R72. -/
def Mnemonic.zeroB : Mnemonic → Word
  | .hcadd16 | .cadd16 | .hcsub16 | .csub16 => 0x0000
  | .wr | .hcadd8 | .cadd8 | .hcsub8 | .csub8 => 0xFF00
  | .pname => 0xFFFE
  | .rd | .cload | .cunload | .hdec | .hchk | .romsz | .ramsz | .tname | .sext8 => 0xFFFF

/-- The row an `op` selects; none for the unassigned codes (R72, R75). -/
def mnemonicOf (op : Byte) : Option Mnemonic := Mnemonic.all.find? fun m => m.op == op

/-- The "operands used" column of R72: the command a row makes of `A` and `B` (R73). -/
def Mnemonic.withOperands : Mnemonic → Word → Word → Instr
  | .rd, a, _ => .rd a
  | .wr, a, b => .wr a (lowByte b)
  | .cload, _, _ => .cload
  | .cunload, _, _ => .cunload
  | .hdec, _, _ => .hdec
  | .hchk, _, _ => .hchk
  | .romsz, a, _ => .romsz (lowByte a)
  | .ramsz, a, _ => .ramsz (lowByte a)
  | .tname, a, _ => .tname (lowByte a)
  | .pname, a, b => .pname a (b.getLsbD 0)
  | .hcadd8, a, b => .hcadd8 (lowByte a) (lowByte b)
  | .cadd8, a, b => .cadd8 (lowByte a) (lowByte b)
  | .hcsub8, a, b => .hcsub8 (lowByte a) (lowByte b)
  | .csub8, a, b => .csub8 (lowByte a) (lowByte b)
  | .hcadd16, a, b => .hcadd16 a b
  | .cadd16, a, b => .cadd16 a b
  | .hcsub16, a, b => .hcsub16 a b
  | .csub16, a, b => .csub16 a b
  | .sext8, a, _ => .sext8 (lowByte a)

/-- The decoder: every word gives one command or is rejected by R74 or R75 (R76). -/
def decode (w : Command) : Except DecodeError Instr :=
  match mnemonicOf (opField w) with
  | none => .error (.unassignedOpcode (opField w))
  | some m =>
    if fieldA w &&& m.zeroA = 0 ∧ fieldB w &&& m.zeroB = 0 then
      .ok (m.withOperands (fieldA w) (fieldB w))
    else .error (.reservedBits m)

/-- The `A` field of a command, "every unused and must-be-zero bit 0" (R72, R78). -/
def Instr.wordA : Instr → Word
  | .rd addr => addr
  | .wr addr _ => addr
  | .cload | .cunload | .hdec | .hchk => 0
  | .romsz code | .ramsz code | .tname code => code.setWidth 16
  | .pname license _ => license
  | .hcadd8 a _ | .cadd8 a _ | .hcsub8 a _ | .csub8 a _ => a.setWidth 16
  | .hcadd16 a _ | .cadd16 a _ | .hcsub16 a _ | .csub16 a _ => a
  | .sext8 v => v.setWidth 16

/-- The `B` field of a command, "every unused and must-be-zero bit 0" (R72, R78). -/
def Instr.wordB : Instr → Word
  | .rd _ | .cload | .cunload | .hdec | .hchk | .romsz _ | .ramsz _ | .tname _ | .sext8 _ => 0
  | .wr _ data => data.setWidth 16
  | .pname _ isOld => if isOld then 1 else 0
  | .hcadd8 _ b | .cadd8 _ b | .hcsub8 _ b | .csub8 _ b => b.setWidth 16
  | .hcadd16 _ b | .cadd16 _ b | .hcsub16 _ b | .csub16 _ b => b

/-- The word of a command, `op ‖ A ‖ B` (R70, R78). -/
def encode (i : Instr) : Command := i.mnemonic.op ++ i.wordA ++ i.wordB

/-- spec/opcode_table.json, row by row: the match and mask of each mnemonic. -/
def opcodeTable : List OpcodeRow :=
  [⟨.rd, 0x0000000000, 0xFF0000FFFF⟩, ⟨.wr, 0x0100000000, 0xFF0000FF00⟩,
   ⟨.cload, 0x1000000000, 0xFFFFFFFFFF⟩, ⟨.cunload, 0x1100000000, 0xFFFFFFFFFF⟩,
   ⟨.hdec, 0x2000000000, 0xFFFFFFFFFF⟩, ⟨.hchk, 0x2100000000, 0xFFFFFFFFFF⟩,
   ⟨.romsz, 0x2200000000, 0xFFFF00FFFF⟩, ⟨.ramsz, 0x2300000000, 0xFFFF00FFFF⟩,
   ⟨.tname, 0x2400000000, 0xFFFF00FFFF⟩, ⟨.pname, 0x2500000000, 0xFF0000FFFE⟩,
   ⟨.hcadd8, 0x3000000000, 0xFFFF00FF00⟩, ⟨.cadd8, 0x3100000000, 0xFFFF00FF00⟩,
   ⟨.hcsub8, 0x3200000000, 0xFFFF00FF00⟩, ⟨.csub8, 0x3300000000, 0xFFFF00FF00⟩,
   ⟨.hcadd16, 0x3400000000, 0xFF00000000⟩, ⟨.cadd16, 0x3500000000, 0xFF00000000⟩,
   ⟨.hcsub16, 0x3600000000, 0xFF00000000⟩, ⟨.csub16, 0x3700000000, 0xFF00000000⟩,
   ⟨.sext8, 0x3800000000, 0xFFFF00FFFF⟩]

/-- The command word whose bits are `w`, as spec/opcode_table.json numbers them: one word of 40 bits, bit 0 the
least significant bit of `B`; the bits from `nbits` up are 0. -/
def tableWord (nbits w : Nat) : Command := BitVec.ofNat 40 (w % 2 ^ nbits)

/-- The command the decoder reads from a table word; none where it rejects the word. -/
def decodeTableWord (nbits w : Nat) : Option Instr := (decode (tableWord nbits w)).toOption

/-- The command of a well-formed line; none for a line R78 calls an assembly error. -/
def Line.toInstr (l : Line) : Option Instr :=
  if l.wf then
    match l.mnemonic, l.operands with
    | .rd, [a] => some (.rd (BitVec.ofNat 16 a))
    | .wr, [a, v] => some (.wr (BitVec.ofNat 16 a) (BitVec.ofNat 8 v))
    | .cload, [] => some .cload
    | .cunload, [] => some .cunload
    | .hdec, [] => some .hdec
    | .hchk, [] => some .hchk
    | .romsz, [c] => some (.romsz (BitVec.ofNat 8 c))
    | .ramsz, [c] => some (.ramsz (BitVec.ofNat 8 c))
    | .tname, [c] => some (.tname (BitVec.ofNat 8 c))
    | .pname, [l, o] => some (.pname (BitVec.ofNat 16 l) (o == 1))
    | .hcadd8, [a, b] => some (.hcadd8 (BitVec.ofNat 8 a) (BitVec.ofNat 8 b))
    | .cadd8, [a, b] => some (.cadd8 (BitVec.ofNat 8 a) (BitVec.ofNat 8 b))
    | .hcsub8, [a, b] => some (.hcsub8 (BitVec.ofNat 8 a) (BitVec.ofNat 8 b))
    | .csub8, [a, b] => some (.csub8 (BitVec.ofNat 8 a) (BitVec.ofNat 8 b))
    | .hcadd16, [a, b] => some (.hcadd16 (BitVec.ofNat 16 a) (BitVec.ofNat 16 b))
    | .cadd16, [a, b] => some (.cadd16 (BitVec.ofNat 16 a) (BitVec.ofNat 16 b))
    | .hcsub16, [a, b] => some (.hcsub16 (BitVec.ofNat 16 a) (BitVec.ofNat 16 b))
    | .csub16, [a, b] => some (.csub16 (BitVec.ofNat 16 a) (BitVec.ofNat 16 b))
    | .sext8, [v] => some (.sext8 (BitVec.ofNat 8 v))
    | _, _ => none
  else none

end Sys2Proof
end

