-- ==== Sys2Proof/Config.lean ====
section
/-! DEFINITION. What is fixed for the block (00_scope.md R10) and what the spec leaves open (R11): the open
parameters are constants without a body, so nothing can be proved about their values. -/

namespace Sys2Proof.Config

/-- `VRAM_SIZE` (R10). -/
abbrev vramSize : Nat := 0x2000
/-- `WRAM_SIZE` (R10). -/
abbrev wramSize : Nat := 0x2000
/-- `OAM_SIZE` (R10). -/
abbrev oamSize : Nat := 0xA0
/-- `HRAM_SIZE` (R10). -/
abbrev hramSize : Nat := 0x7F
/-- `MIN_ROM_BYTES` (R10). -/
abbrev minRomBytes : Nat := 0x0150
/-- `HEADER_BASE` (R10). -/
abbrev headerBase : Nat := 0x0100
/-- `HEADER_BYTES` (R10). -/
abbrev headerBytes : Nat := 0x50
/-- `OPEN_BUS` (R10). -/
abbrev openBus : Byte := 0xFF
/-- `UNUSABLE_READ` (R10). -/
abbrev unusableRead : Byte := 0x00

/-- One call of the I/O delegate (R37). -/
inductive IoCall where
  | read (a : Addr)
  | write (a : Addr) (v : Byte)
deriving DecidableEq, Repr

/-- The address a delegate call is made with. -/
def IoCall.addr : IoCall → Addr
  | .read a => a
  | .write a _ => a

/-- FREE VALUE (R11, R190; log entry 1, DEDUCED). The byte an external I/O delegate answers to `io_read(a)` after
the calls of `history`, newest first. Any delegate state that only the block's calls change is a function of them. -/
opaque ioReadByte (history : List IoCall) (a : Addr) : Byte

/-- FREE VALUE (R11, R144; log entry 2). `TypeNameTable`, a partial map. -/
opaque typeNameTable (code : Byte) : Option Text

/-- FREE VALUE (R11, R146; log entry 2). `OldPublisherTable` at the keys the spec does not fix. -/
opaque oldPublisherOther (code : Byte) : Option Text

/-- FREE VALUE (R11, R146; log entry 2). `NewPublisherTable` at the keys the spec does not fix. -/
opaque newPublisherOther (license : Word) : Option Text

/-- One free draw of everything a CLOAD consumes: whether the file opens, the bytes that arrive, how many of the
file's bytes do not arrive, and the two allocation outcomes (R101, R103). Every input of R101 is such a draw. -/
structure LoadDraw where
  opens : Bool
  arriving : List Byte
  missing : Nat
  romAllocOk : Bool
  ramAllocOk : Bool
deriving DecidableEq, Repr, Inhabited

/-- FREE VALUE (R101, R103; log entry 3). The input of a CLOAD for which the host has presented none; `n` counts
such loads, so each draws afresh. -/
opaque freeLoad (n : Nat) : LoadDraw

end Sys2Proof.Config
end

