-- ==== Sys2Proof/Machine/State.lean ====
section
/-! DEFINITION. The state (10_state.md): the block state of R20, and the interfaces of R37 held as plain data. -/

namespace Sys2Proof.Machine

/-- A byte array of the spec (R13, R20): `size` bytes, of which only those other than `Memory.unlisted` are listed,
at strictly rising indices below `size` (`Memory.wf`). Equal arrays are then equal data. -/
structure Memory where
  size : Nat
  cells : List Host.Cell
deriving DecidableEq, Repr

/-- What an index that is not listed reads as: 0x00, the content of every array at console creation and of a fresh
cartridge RAM (R21–R24, R28; log entry 6). -/
def Memory.unlisted : Byte := 0x00

/-- The canonical form of a cell list whose indices lie in `lo ≤ i < hi`. -/
def cellsWf (lo hi : Nat) : List Host.Cell → Bool
  | [] => true
  | (i, v) :: rest => decide (lo ≤ i) && decide (i < hi) && v != Memory.unlisted && cellsWf (i + 1) hi rest

/-- The canonical form: indices strictly rising and below the size, no listed byte equal to `unlisted`. -/
def Memory.wf (m : Memory) : Bool := cellsWf 0 m.size m.cells

/-- The fields of the raw header (R30). -/
inductive HeaderField where
  | entryPoint | logo | title | newLicense | sgbFlag | cartType | romSizeCode | ramSizeCode
  | destination | oldLicense | version | headerChecksum | globalChecksum
deriving DecidableEq, Repr

/-- The decoded header register file (R31). -/
structure Header where
  /-- 17 bytes. -/
  title : Text
  cartType : Byte
  romSizeCode : Byte
  ramSizeCode : Byte
  license : Word
  version : Byte
  sgbSupported : Bool
  cgbSupported : Bool
deriving DecidableEq, Repr

/-- A loaded cartridge (R20, R27–R31): `rom_size` is `rom.size`, `ram_size` is `ram.size`. -/
structure Cart where
  rom : Memory
  ram : Memory
  /-- The raw header snapshot, 0x50 bytes (R29). -/
  raw : List Byte
  hdr : Header
deriving DecidableEq, Repr

/-- The cartridge slot (R26). -/
inductive Slot where
  | empty
  | loaded (c : Cart)
deriving DecidableEq, Repr

/-- The block state; "no other state exists in the block" (R20). -/
structure BlockState where
  vram : Memory
  wram : Memory
  oam : Memory
  hram : Memory
  ie : Byte
  slot : Slot
deriving DecidableEq, Repr

/-- The eleven region kinds (43_bus_dispatcher.md R170). -/
inductive RegionKind where
  | rom0 | romX | vram | eram | wram | echo | oam | unusable | io | hram | ie
deriving DecidableEq, Repr

/-- A storage cell of the block (R196). -/
inductive StorageCell where
  | rom (i : Nat)
  | vram (i : Nat)
  | ram (i : Nat)
  | wram (i : Nat)
  | oam (i : Nat)
  | hram (i : Nat)
  | ie
deriving DecidableEq, Repr

/-- The I/O delegate's own state (R38): the reference placeholder, which has none (R198), or an external delegate,
known by the calls made to it, newest first (log entry 1). -/
inductive IoState where
  | placeholder
  | external (history : List Config.IoCall)
deriving DecidableEq, Repr

/-- The ROM image as the host presents it (41_cartridge_loader.md R101). -/
inductive ImageSource where
  | openFail
  | file (length : Nat) (bytes : Memory)
deriving DecidableEq, Repr

/-- The side condition of R101: `bytes.size ≤ length` (and the bytes in canonical form; log entry 12). -/
def ImageSource.wf : ImageSource → Bool
  | .openFail => true
  | .file length bytes => bytes.wf && decide (bytes.size ≤ length)

/-- What one CLOAD consumes (R101, R103). -/
structure LoadInput where
  src : ImageSource
  romAllocOk : Bool
  ramAllocOk : Bool
deriving DecidableEq, Repr

/-- The load statuses (60_exceptions.md R241). -/
inductive LoadStatus where
  | ok | openFailure | tooSmall | allocationFailure | readFailure | checksumMismatch
deriving DecidableEq, Repr

/-- The response of a completed command (30_encoding.md R77). -/
inductive Resp where
  | none
  | byte (v : Byte)
  | load (st : LoadStatus) (unk : Bool)
  | header (h : Header)
  | bool (b : Bool)
  | size (n : Nat) (unk : Bool)
  | name (s : Text)
  | word (v : Word)
deriving DecidableEq, Repr

/-- The machine: the block and its interfaces (R20, R37). -/
structure State where
  block : BlockState
  /-- The I/O delegate's state, not part of the block (R38). -/
  io : IoState
  /-- The command port: the words issued and not yet performed, the next one first (R59). -/
  commands : List Command
  /-- The image port and the allocation draws: the inputs of the CLOADs to come (R101, R103). -/
  loads : List LoadInput
  /-- The response port: the response of the latest completed command (R77). -/
  resp : Option Resp
  /-- The model's own: how many free CLOAD inputs have been drawn (log entry 3). -/
  draws : Nat
deriving DecidableEq, Repr

/-- No command traps and no address faults (R197, R240, R249): the type has no value (log entry 9). -/
inductive Fault where
deriving DecidableEq, Repr

/-- Why a step does not happen (R15, R251). Each errs toward unprovable: safe. -/
inductive Refusal where
  /-- Raised by exec for an instruction without a meaning; no arm raises it. Safe. -/
  | notModelled (mnemonic : String)
  /-- Raised by step when the command port holds no word (log entry 4). Safe. -/
  | noCommand
  /-- Raised by step for a code R72 does not assign (R75). Safe. -/
  | unassignedOpcode (op : Byte)
  /-- Raised by step for a word with a must-be-zero bit set (R74). Safe. -/
  | reservedBits (m : Mnemonic)
  /-- Raised by HDEC and HCHK on an empty slot (R136, R138). Safe. -/
  | emptySlot
deriving DecidableEq, Repr

/-- The block at console creation (R39, R260). -/
def BlockState.reset : BlockState where
  vram := ⟨Config.vramSize, []⟩
  wram := ⟨Config.wramSize, []⟩
  oam := ⟨Config.oamSize, []⟩
  hram := ⟨Config.hramSize, []⟩
  ie := 0x00
  slot := .empty

/-- The machine at console creation: the block of R39, an external delegate not yet called, nothing issued, nothing
presented, no response (log entries 1, 3, 4, 5). -/
def State.reset : State where
  block := BlockState.reset
  io := .external []
  commands := []
  loads := []
  resp := none
  draws := 0

end Sys2Proof.Machine
end

