-- ==== Sys2Proof/Machine/Ops.lean ====
section
/-! DEFINITION. The named operations over byte arrays, the slot and the interfaces. The block takes no exception and
returns from none (60_exceptions.md R240, R253), so there is no entry operation; the one failure path, `fail e` of
00_scope.md R14, is `State.finishLoad` in Machine/Loader.lean. -/

namespace Sys2Proof.Machine

/-- The byte a canonical cell list holds at index `i`. -/
def getCell (i : Nat) : List Host.Cell → Byte
  | [] => Memory.unlisted
  | (j, v) :: rest => if j < i then getCell i rest else if j = i then v else Memory.unlisted

/-- Put a byte at the head of a cell list, unless it is what an unlisted index reads as. -/
def consCell (i : Nat) (v : Byte) (rest : List Host.Cell) : List Host.Cell :=
  if v = Memory.unlisted then rest else (i, v) :: rest

/-- Replace the byte at index `i`, keeping the list canonical. -/
def setCell (i : Nat) (v : Byte) : List Host.Cell → List Host.Cell
  | [] => consCell i v []
  | (j, w) :: rest =>
    if j < i then (j, w) :: setCell i v rest
    else if j = i then consCell i v rest
    else consCell i v ((j, w) :: rest)

/-- `A[i]` (R13). -/
def Memory.get (m : Memory) (i : Nat) : Byte := getCell i m.cells

/-- `A[i] <- v` (R13). -/
def Memory.set (m : Memory) (i : Nat) (v : Byte) : Memory := { m with cells := setCell i v m.cells }

/-- `Array.replicate n 0x00` (R108). -/
def Memory.zeros (n : Nat) : Memory := ⟨n, []⟩

/-- The canonical cells of bytes laid from index `i` up. -/
def cellsFrom (i : Nat) : List Byte → List Host.Cell
  | [] => []
  | v :: rest => consCell i v (cellsFrom (i + 1) rest)

/-- The array of the given bytes. -/
def Memory.ofBytes (bs : List Byte) : Memory := ⟨bs.length, cellsFrom 0 bs⟩

/-- `A[lo .. lo+n-1]` (R13), as a list. -/
def Memory.slice (m : Memory) (lo n : Nat) : List Byte := (List.range n).map fun k => m.get (lo + k)

/-- `rom_size` (R26). -/
def BlockState.romSize (b : BlockState) : Nat :=
  match b.slot with
  | .empty => 0
  | .loaded c => c.rom.size

/-- `ram_size` (R26). -/
def BlockState.ramSize (b : BlockState) : Nat :=
  match b.slot with
  | .empty => 0
  | .loaded c => c.ram.size

/-- `romByte(s, i)` (R173). -/
def BlockState.romByte (b : BlockState) (i : Nat) : Byte :=
  match b.slot with
  | .loaded c => if i < c.rom.size then c.rom.get i else Config.openBus
  | .empty => Config.openBus

/-- `ramByte(s, o)` (R173). -/
def BlockState.ramByte (b : BlockState) (o : Nat) : Byte :=
  match b.slot with
  | .loaded c => if o < c.ram.size then c.ram.get o else Config.openBus
  | .empty => Config.openBus

/-- The cartridge RAM write of R181: dropped past `ram_size` and on an empty slot. -/
def BlockState.setRam (b : BlockState) (o : Nat) (v : Byte) : BlockState :=
  match b.slot with
  | .loaded c => if o < c.ram.size then { b with slot := .loaded { c with ram := c.ram.set o v } } else b
  | .empty => b

/-- `vram[i] <- v`. -/
def BlockState.setVram (b : BlockState) (i : Nat) (v : Byte) : BlockState := { b with vram := b.vram.set i v }

/-- `wram[i] <- v`. -/
def BlockState.setWram (b : BlockState) (i : Nat) (v : Byte) : BlockState := { b with wram := b.wram.set i v }

/-- `oam[i] <- v`. -/
def BlockState.setOam (b : BlockState) (i : Nat) (v : Byte) : BlockState := { b with oam := b.oam.set i v }

/-- `hram[i] <- v`. -/
def BlockState.setHram (b : BlockState) (i : Nat) (v : Byte) : BlockState := { b with hram := b.hram.set i v }

/-- `ie <- v`; all eight bits are stored (R25). -/
def BlockState.setIe (b : BlockState) (v : Byte) : BlockState := { b with ie := v }

/-- `slot <- sl`. -/
def BlockState.setSlot (b : BlockState) (sl : Slot) : BlockState := { b with slot := sl }

/-- The whole block state replaced. -/
def State.setBlock (s : State) (b : BlockState) : State := { s with block := b }

/-- The I/O delegate's state replaced. -/
def State.setIo (s : State) (io : IoState) : State := { s with io := io }

/-- The command port replaced. -/
def State.setCommands (s : State) (ws : List Command) : State := { s with commands := ws }

/-- A response put on the response port (R77). -/
def State.setResp (s : State) (r : Resp) : State := { s with resp := some r }

/-- `respond r`: the command ends with response `r` (R14). -/
def State.respond (s : State) (r : Resp) : Host.Outcome State Fault Refusal := .next (s.setResp r)

/-- The loaded cartridge, where there is one. -/
def BlockState.cart (b : BlockState) : Option Cart :=
  match b.slot with
  | .empty => none
  | .loaded c => some c

/-- A free draw as an input of CLOAD: `length` bytes of file, of which the first ones arrive (R101, R103). -/
def inputOfDraw (d : Config.LoadDraw) : LoadInput where
  src := if d.opens then .file (d.arriving.length + d.missing) (Memory.ofBytes d.arriving) else .openFail
  romAllocOk := d.romAllocOk
  ramAllocOk := d.ramAllocOk

/-- What the next CLOAD consumes: what the host presented, else a free draw (R101, R103; log entry 3). -/
def State.nextLoad (s : State) : LoadInput :=
  match s.loads with
  | [] => inputOfDraw (Config.freeLoad s.draws)
  | inp :: _ => inp

/-- The state once `nextLoad` is consumed. -/
def State.takeLoad (s : State) : State :=
  match s.loads with
  | [] => { s with draws := s.draws + 1 }
  | _ :: rest => { s with loads := rest }

/-- The read value of the placeholder's registers (R198): joypad, LCD control, background palette, and 0xFF
everywhere else. The three addresses are PRESUMED (G3, log entry 8). -/
def placeholderByte (a : Addr) : Byte :=
  if a = 0xFF00 then 0xCF else if a = 0xFF40 then 0x91 else if a = 0xFF47 then 0xFC else 0xFF

/-- `io_read(io, a)` (R11, R190): the delegate's byte and its next state. -/
def IoState.read (io : IoState) (a : Addr) : Byte × IoState :=
  match io with
  | .placeholder => (placeholderByte a, .placeholder)
  | .external history => (Config.ioReadByte history a, .external (.read a :: history))

/-- `io_write(io, a, v)` (R11, R191): the delegate's next state. -/
def IoState.write (io : IoState) (a : Addr) (v : Byte) : IoState :=
  match io with
  | .placeholder => .placeholder
  | .external history => .external (.write a v :: history)

/-- The refusal a rejected word ends in (30_encoding.md R74, R75). -/
def refusalOf : DecodeError → Refusal
  | .unassignedOpcode op => .unassignedOpcode op
  | .reservedBits m => .reservedBits m

end Sys2Proof.Machine
end

