-- ==== Sys2Proof/Machine/Operands.lean ====
section
/-! DEFINITION. The address operand: the region comparator (43_bus_dispatcher.md R171), the storage index of each
region (30_encoding.md R80) and the storage cell an address reaches (R196). -/

namespace Sys2Proof.Machine

/-- The region comparator: ascending boundaries, the first comparison that holds decides (R171). -/
def region (a : Addr) : RegionKind :=
  if a.toNat < 0x4000 then .rom0
  else if a.toNat < 0x8000 then .romX
  else if a.toNat < 0xA000 then .vram
  else if a.toNat < 0xC000 then .eram
  else if a.toNat < 0xE000 then .wram
  else if a.toNat < 0xFE00 then .echo
  else if a.toNat < 0xFEA0 then .oam
  else if a.toNat < 0xFF00 then .unusable
  else if a.toNat < 0xFF80 then .io
  else if a.toNat < 0xFFFF then .hram
  else .ie

/-- The index into a region's backing store, `a` less the region's base; the ROM area is indexed by the address
itself (R175, R176). Unused for the kinds without an array. -/
def storageIndex (a : Addr) : Nat :=
  match region a with
  | .rom0 | .romX => a.toNat
  | .vram => a.toNat - 0x8000
  | .eram => a.toNat - 0xA000
  | .wram => a.toNat - 0xC000
  | .echo => a.toNat - 0xE000
  | .oam => a.toNat - 0xFE00
  | .hram => a.toNat - 0xFF80
  | .unusable | .io | .ie => 0

/-- `cell(a)`, the storage cell an address reaches; none where it reaches none (R196). -/
def cell (b : BlockState) (a : Addr) : Option StorageCell :=
  match region a with
  | .rom0 | .romX => if a.toNat < b.romSize then some (.rom (storageIndex a)) else none
  | .vram => some (.vram (storageIndex a))
  | .eram => if storageIndex a < b.ramSize then some (.ram (storageIndex a)) else none
  | .wram | .echo => some (.wram (storageIndex a))
  | .oam => some (.oam (storageIndex a))
  | .hram => some (.hram (storageIndex a))
  | .ie => some .ie
  | .unusable | .io => none

end Sys2Proof.Machine
end

