-- ==== Sys2Proof/Machine/Bus.lean ====
section
/-! DEFINITION. The bus dispatcher (43_bus_dispatcher.md): the read multiplexer, the write-effect logic, and the
commands RD and WR. -/

namespace Sys2Proof.Machine

/-- The read multiplexer (R173, R175–R194): the byte a region returns, and the delegate's next state. -/
def busRead (b : BlockState) (io : IoState) (a : Addr) : Byte × IoState :=
  match region a with
  | .rom0 => (b.romByte (storageIndex a), io)
  | .romX => (b.romByte (storageIndex a), io)
  | .vram => (b.vram.get (storageIndex a), io)
  | .eram => (b.ramByte (storageIndex a), io)
  | .wram => (b.wram.get (storageIndex a), io)
  | .echo => (b.wram.get (storageIndex a), io)
  | .oam => (b.oam.get (storageIndex a), io)
  | .unusable => (Config.unusableRead, io)
  | .io => io.read a
  | .hram => (b.hram.get (storageIndex a), io)
  | .ie => (b.ie, io)

/-- The write effect on the block (R174, R177–R195). -/
def blockWrite (b : BlockState) (a : Addr) (v : Byte) : BlockState :=
  match region a with
  | .rom0 => b
  | .romX => b
  | .vram => b.setVram (storageIndex a) v
  | .eram => b.setRam (storageIndex a) v
  | .wram => b.setWram (storageIndex a) v
  | .echo => b.setWram (storageIndex a) v
  | .oam => b.setOam (storageIndex a) v
  | .unusable => b
  | .io => b
  | .hram => b.setHram (storageIndex a) v
  | .ie => b.setIe v

/-- The write effect on the delegate, called for the I/O region only (R191, R37). -/
def delegateWrite (io : IoState) (a : Addr) (v : Byte) : IoState :=
  match region a with
  | .io => io.write a v
  | .rom0 | .romX | .vram | .eram | .wram | .echo | .oam | .unusable | .hram | .ie => io

/-- RD (R173). -/
def execRd (addr : Addr) (s : State) : Host.Outcome State Fault Refusal :=
  (s.setIo (busRead s.block s.io addr).2).respond (.byte (busRead s.block s.io addr).1)

/-- WR (R174). -/
def execWr (addr : Addr) (data : Byte) (s : State) : Host.Outcome State Fault Refusal :=
  ((s.setBlock (blockWrite s.block addr data)).setIo (delegateWrite s.io addr data)).respond .none

end Sys2Proof.Machine
end

