-- ==== Sys2Proof/Machine/Flags.lean ====
section
/-! DEFINITION. The status bits the block computes: the carry and half-carry predicates of 44_utility.md R220–R228
and the two header flags of 42_header_decoder.md R132, R133. None is stored but the header flags (10_state.md R36). -/

namespace Sys2Proof.Machine

/-- `zext_16(a[3:0]) + zext_16(b[3:0]) > 0x0F` (R221). -/
def halfCarryAdd8 (a b : Byte) : Bool :=
  decide ((0x0F : Word) < (a.extractLsb' 0 4).setWidth 16 + (b.extractLsb' 0 4).setWidth 16)

/-- `zext_16(a) + zext_16(b) > 0x00FF` (R222). -/
def carryAdd8 (a b : Byte) : Bool := decide ((0x00FF : Word) < a.setWidth 16 + b.setWidth 16)

/-- `a[3:0] < b[3:0]` (R223). -/
def halfCarrySub8 (a b : Byte) : Bool := decide (a.extractLsb' 0 4 < b.extractLsb' 0 4)

/-- `a < b`, unsigned (R224). -/
def carrySub8 (a b : Byte) : Bool := decide (a < b)

/-- `zext_32(a[11:0]) + zext_32(b[11:0]) > 0x0FFF` (R225). -/
def halfCarryAdd16 (a b : Word) : Bool :=
  decide ((0x0FFF : BitVec 32) < (a.extractLsb' 0 12).setWidth 32 + (b.extractLsb' 0 12).setWidth 32)

/-- `zext_32(a) + zext_32(b) > 0xFFFF` (R226). -/
def carryAdd16 (a b : Word) : Bool := decide ((0xFFFF : BitVec 32) < a.setWidth 32 + b.setWidth 32)

/-- `a[11:0] < b[11:0]` (R227). -/
def halfCarrySub16 (a b : Word) : Bool := decide (a.extractLsb' 0 12 < b.extractLsb' 0 12)

/-- `a < b`, unsigned (R228). -/
def carrySub16 (a b : Word) : Bool := decide (a < b)

/-- The byte sign-extended to 16 bits: `0xFF ‖ v` from 0x80 up, else `0x00 ‖ v` (R229). -/
def signExtend8 (v : Byte) : Word := if 0x80 ≤ v then (0xFF : Byte) ++ v else (0x00 : Byte) ++ v

/-- The CGB-support flag: title byte 15 is exactly 0x80 or exactly 0xC0 (R132). -/
def cgbFlag (f : Byte) : Bool := f == 0x80 || f == 0xC0

/-- The SGB flag: the raw byte is exactly 0x03 (R133). -/
def sgbFlag (f : Byte) : Bool := f == 0x03

end Sys2Proof.Machine
end

