-- ==== Sys2Proof/Machine/HeaderParser.lean ====
section
/-! DEFINITION. The pure functions of the header parser (42_header_decoder.md): the decoder, the checksum validator,
the size decoders and the name lookups, which CLOAD and the header commands share. -/

namespace Sys2Proof.Machine

/-- Where each header field lies in the raw header and how wide it is (R30): the one table of the offsets, which the
spec takes from general knowledge (G1, G2, D18; log entry 7, PRESUMED). -/
def headerLayout : HeaderField → Nat × Nat
  | .entryPoint => (0x00, 4)
  | .logo => (0x04, 48)
  | .title => (0x34, 16)
  | .newLicense => (0x44, 2)
  | .sgbFlag => (0x46, 1)
  | .cartType => (0x47, 1)
  | .romSizeCode => (0x48, 1)
  | .ramSizeCode => (0x49, 1)
  | .destination => (0x4A, 1)
  | .oldLicense => (0x4B, 1)
  | .version => (0x4C, 1)
  | .headerChecksum => (0x4D, 1)
  | .globalChecksum => (0x4E, 2)

/-- Byte `k` of a field of the raw header. -/
def fieldByte (raw : List Byte) (f : HeaderField) (k : Nat) : Byte := raw.getD ((headerLayout f).1 + k) 0x00

/-- The bytes of a field of the raw header. -/
def fieldBytes (raw : List Byte) (f : HeaderField) : List Byte :=
  (List.range (headerLayout f).2).map (fieldByte raw f)

/-- The resolved licence code: the new pair, high byte first, under the sentinel 0x33, else the old byte (R134). -/
def resolveLicense (raw : List Byte) : Word :=
  if fieldByte raw .oldLicense 0 = 0x33 then fieldByte raw .newLicense 0 ++ fieldByte raw .newLicense 1
  else (fieldByte raw .oldLicense 0).setWidth 16

/-- The title register: the title field, a 0x00 at position 16, and a 0x00 over byte 15 where that byte is the
CGB-support flag (R131, R132). -/
def titleRegister (raw : List Byte) : Text :=
  if cgbFlag (fieldByte raw .title 15) then (fieldBytes raw .title ++ [0x00]).set 15 0x00
  else fieldBytes raw .title ++ [0x00]

/-- `decode(raw)` (R130–R135). -/
def decodeHeader (raw : List Byte) : Header where
  title := titleRegister raw
  cartType := fieldByte raw .cartType 0
  romSizeCode := fieldByte raw .romSizeCode 0
  ramSizeCode := fieldByte raw .ramSizeCode 0
  license := resolveLicense raw
  version := fieldByte raw .version 0
  sgbSupported := sgbFlag (fieldByte raw .sgbFlag 0)
  cgbSupported := cgbFlag (fieldByte raw .title 15)

/-- The visible title: the title register before its first 0x00 (R149). -/
def visibleTitle (h : Header) : Text := h.title.takeWhile (· ≠ 0x00)

/-- The raw header snapshot of a ROM buffer, copied at load (R29, R105). -/
def headerSnapshot (rom : Memory) : List Byte := rom.slice Config.headerBase Config.headerBytes

/-- The final value of the subtract-and-decrement recurrence over ROM 0x0134–0x014C (R137). -/
def headerChecksum (rom : Memory) : Byte :=
  (rom.slice 0x0134 25).foldl (fun c v => c - v - 1) 0x00

/-- `verify_checksum(rom)` (R137). -/
def verifyChecksum (rom : Memory) : Bool := headerChecksum rom == rom.get 0x014D

/-- `decode_rom_size(code)`: bytes, and whether the code is unknown (R140). -/
def decodeRomSize (code : Byte) : Nat × Bool :=
  if code.toNat ≤ 0x08 then (32768 <<< code.toNat, false)
  else if code = 0x52 then (1179648, false)
  else if code = 0x53 then (1310720, false)
  else if code = 0x54 then (1572864, false)
  else (0, true)

/-- `decode_ram_size(code)`: bytes, and whether the code is unknown (R142). -/
def decodeRamSize (code : Byte) : Nat × Bool :=
  if code = 0x00 then (0, false)
  else if code = 0x01 then (2048, false)
  else if code = 0x02 then (8192, false)
  else if code = 0x03 then (32768, false)
  else if code = 0x04 then (131072, false)
  else if code = 0x05 then (65536, false)
  else (0, true)

/-- The bytes of "UNKNOWN" (R144). -/
def unknownTypeName : Text := [0x55, 0x4E, 0x4B, 0x4E, 0x4F, 0x57, 0x4E]

/-- The bytes of "Unknown" (R146). -/
def unknownPublisherName : Text := [0x55, 0x6E, 0x6B, 0x6E, 0x6F, 0x77, 0x6E]

/-- The bytes of "Nintendo" (R146). -/
def nintendoName : Text := [0x4E, 0x69, 0x6E, 0x74, 0x65, 0x6E, 0x64, 0x6F]

/-- `OldPublisherTable`: the fixed entry 0x01, the rest open (R146). -/
def oldPublisherTable (code : Byte) : Option Text :=
  if code = 0x01 then some nintendoName else Config.oldPublisherOther code

/-- `NewPublisherTable`: the fixed entry 0x3031, the rest open (R146). -/
def newPublisherTable (license : Word) : Option Text :=
  if license = 0x3031 then some nintendoName else Config.newPublisherOther license

/-- `cartridge_type_name(code)` (R144). -/
def cartridgeTypeName (code : Byte) : Text := (Config.typeNameTable code).getD unknownTypeName

/-- `publisher_name(license, is_old)`: the old registry only for a licence that is one byte (R146). -/
def publisherName (license : Word) (isOld : Bool) : Text :=
  if isOld then
    if license.toNat ≤ 0x00FF then (oldPublisherTable (license.setWidth 8)).getD unknownPublisherName
    else unknownPublisherName
  else (newPublisherTable license).getD unknownPublisherName

/-- The `is_old` that matches a loaded cartridge's resolved licence: its old licence byte is not 0x33 (R148). -/
def matchingIsOld (c : Cart) : Bool := fieldByte c.raw .oldLicense 0 != 0x33

end Sys2Proof.Machine
end

