-- ==== Sys2Proof/Machine/Header.lean ====
section
/-! DEFINITION. The header commands (42_header_decoder.md): HDEC, HCHK, ROMSZ, RAMSZ, TNAME, PNAME. None changes
the block state. -/

namespace Sys2Proof.Machine

/-- HDEC; refused on an empty slot (R136). -/
def execHdec (s : State) : Host.Outcome State Fault Refusal :=
  match s.block.slot with
  | .empty => .refused .emptySlot
  | .loaded c => s.respond (.header (decodeHeader c.raw))

/-- HCHK; refused on an empty slot (R138). -/
def execHchk (s : State) : Host.Outcome State Fault Refusal :=
  match s.block.slot with
  | .empty => .refused .emptySlot
  | .loaded c => s.respond (.bool (verifyChecksum c.rom))

/-- ROMSZ (R141). -/
def execRomsz (code : Byte) (s : State) : Host.Outcome State Fault Refusal :=
  s.respond (.size (decodeRomSize code).1 (decodeRomSize code).2)

/-- RAMSZ (R143). -/
def execRamsz (code : Byte) (s : State) : Host.Outcome State Fault Refusal :=
  s.respond (.size (decodeRamSize code).1 (decodeRamSize code).2)

/-- TNAME (R145). -/
def execTname (code : Byte) (s : State) : Host.Outcome State Fault Refusal :=
  s.respond (.name (cartridgeTypeName code))

/-- PNAME (R147). -/
def execPname (license : Word) (isOld : Bool) (s : State) : Host.Outcome State Fault Refusal :=
  s.respond (.name (publisherName license isOld))

end Sys2Proof.Machine
end

