-- ==== Sys2Proof/Machine/Loader.lean ====
section
/-! DEFINITION. The cartridge loader (41_cartridge_loader.md): CLOAD and CUNLOAD. -/

namespace Sys2Proof.Machine

/-- The numeric code of a load status (60_exceptions.md R241; log entry 16). -/
def loadStatusCode : LoadStatus → Nat
  | .ok => 0
  | .openFailure => 1
  | .tooSmall => 2
  | .allocationFailure => 3
  | .readFailure => 4
  | .checksumMismatch => 5

/-- The cartridge made of a ROM buffer that passed verification (R105, R106, R108, R109). -/
def cartOf (rom : Memory) : Cart where
  rom := rom
  ram := Memory.zeros (decodeRamSize (decodeHeader (headerSnapshot rom)).ramSizeCode).1
  raw := headerSnapshot rom
  hdr := decodeHeader (headerSnapshot rom)

/-- Whether the RAM-size code of a ROM's header is unknown (R108, R248). -/
def ramCodeUnknown (rom : Memory) : Bool := (decodeRamSize (decodeHeader (headerSnapshot rom)).ramSizeCode).2

/-- The steps of CLOAD in the source's order; the first that fails ends the load (R100, R247). -/
def loadCart (inp : LoadInput) : Except LoadStatus (Cart × Bool) :=
  match inp.src with
  | .openFail => .error .openFailure
  | .file length bytes =>
    if length < Config.minRomBytes then .error .tooSmall
    else if inp.romAllocOk = false then .error .allocationFailure
    else if bytes.size < length then .error .readFailure
    else if verifyChecksum bytes = false then .error .checksumMismatch
    else if 0 < (cartOf bytes).ram.size ∧ inp.ramAllocOk = false then .error .allocationFailure
    else .ok (cartOf bytes, ramCodeUnknown bytes)

/-- The end of a load: the slot filled and `load OK unk` (R109), or `fail e`, which leaves the block state as it was
(R14, R110). -/
def State.finishLoad (s : State) (r : Except LoadStatus (Cart × Bool)) : State :=
  match r with
  | .ok (c, unk) => (s.setBlock (s.block.setSlot (.loaded c))).setResp (.load .ok unk)
  | .error e => s.setResp (.load e false)

/-- CLOAD (R100). -/
def execCload (s : State) : Host.Outcome State Fault Refusal :=
  .next (s.takeLoad.finishLoad (loadCart s.nextLoad))

/-- CUNLOAD (R114). -/
def execCunload (s : State) : Host.Outcome State Fault Refusal :=
  (s.setBlock (s.block.setSlot .empty)).respond .none

end Sys2Proof.Machine
end

