-- ==== Sys2Proof/Machine/Utility.lean ====
section
/-! DEFINITION. The utility predicates (44_utility.md): each reads only its operands and changes no state (R220). -/

namespace Sys2Proof.Machine

/-- HCADD8 (R221). -/
def execHcadd8 (a b : Byte) (s : State) : Host.Outcome State Fault Refusal := s.respond (.bool (halfCarryAdd8 a b))

/-- CADD8 (R222). -/
def execCadd8 (a b : Byte) (s : State) : Host.Outcome State Fault Refusal := s.respond (.bool (carryAdd8 a b))

/-- HCSUB8 (R223). -/
def execHcsub8 (a b : Byte) (s : State) : Host.Outcome State Fault Refusal := s.respond (.bool (halfCarrySub8 a b))

/-- CSUB8 (R224). -/
def execCsub8 (a b : Byte) (s : State) : Host.Outcome State Fault Refusal := s.respond (.bool (carrySub8 a b))

/-- HCADD16 (R225). -/
def execHcadd16 (a b : Word) (s : State) : Host.Outcome State Fault Refusal := s.respond (.bool (halfCarryAdd16 a b))

/-- CADD16 (R226). -/
def execCadd16 (a b : Word) (s : State) : Host.Outcome State Fault Refusal := s.respond (.bool (carryAdd16 a b))

/-- HCSUB16 (R227). -/
def execHcsub16 (a b : Word) (s : State) : Host.Outcome State Fault Refusal := s.respond (.bool (halfCarrySub16 a b))

/-- CSUB16 (R228). -/
def execCsub16 (a b : Word) (s : State) : Host.Outcome State Fault Refusal := s.respond (.bool (carrySub16 a b))

/-- SEXT8 (R229). -/
def execSext8 (v : Byte) (s : State) : Host.Outcome State Fault Refusal := s.respond (.word (signExtend8 v))

end Sys2Proof.Machine
end

