-- ==== Sys2Proof/Machine/Dispatch.lean ====
section
/-! DEFINITION. One arm per command of 30_encoding.md R72. -/

namespace Sys2Proof.Machine

def exec (i : Instr) (s : State) : Host.Outcome State Fault Refusal :=
  match i with
  -- bus
  | .rd addr => Sys2Proof.Machine.execRd addr s
  | .wr addr data => Sys2Proof.Machine.execWr addr data s
  -- loader
  | .cload => Sys2Proof.Machine.execCload s
  | .cunload => Sys2Proof.Machine.execCunload s
  -- header
  | .hdec => Sys2Proof.Machine.execHdec s
  | .hchk => Sys2Proof.Machine.execHchk s
  | .romsz code => Sys2Proof.Machine.execRomsz code s
  | .ramsz code => Sys2Proof.Machine.execRamsz code s
  | .tname code => Sys2Proof.Machine.execTname code s
  | .pname license isOld => Sys2Proof.Machine.execPname license isOld s
  -- utility
  | .hcadd8 a b => Sys2Proof.Machine.execHcadd8 a b s
  | .cadd8 a b => Sys2Proof.Machine.execCadd8 a b s
  | .hcsub8 a b => Sys2Proof.Machine.execHcsub8 a b s
  | .csub8 a b => Sys2Proof.Machine.execCsub8 a b s
  | .hcadd16 a b => Sys2Proof.Machine.execHcadd16 a b s
  | .cadd16 a b => Sys2Proof.Machine.execCadd16 a b s
  | .hcsub16 a b => Sys2Proof.Machine.execHcsub16 a b s
  | .csub16 a b => Sys2Proof.Machine.execCsub16 a b s
  | .sext8 v => Sys2Proof.Machine.execSext8 v s

end Sys2Proof.Machine
end

