-- ==== Sys2Proof/Machine/Step.lean ====
section
/-! DEFINITION. One step: the next command of the port, decoded and performed (00_scope.md R3; 20_memory.md R59). -/

namespace Sys2Proof.Machine

/-- One command: taken from the port, decoded, performed. With no command waiting there is no step (log entry 4). -/
def step (s : State) : Host.Outcome State Fault Refusal :=
  match s.commands with
  | [] => .refused .noCommand
  | w :: rest =>
    match decode w with
    | .error e => .refused (refusalOf e)
    | .ok i => exec i (s.setCommands rest)

/-- The state with a word of spec/opcode_table.json issued as the next command. -/
def State.withFetchWord (s : State) (nbits w : Nat) : State := s.setCommands (tableWord nbits w :: s.commands)

end Sys2Proof.Machine
end

