-- ==== Sys2Proof/Machine/Assembler.lean ====
section
/-! DEFINITION. The assembly syntax (30_encoding.md R78): the mnemonic, then its operands separated by commas, in the
order of R72's column; comments start with `;`; numbers are decimal or `0x` hexadecimal. What R78 leaves open about
white space and letter case is log entry 11. -/

namespace Sys2Proof.Machine

/-- The name of a mnemonic, as spec/opcode_table.json writes it. -/
def mnemonicName : Mnemonic → String
  | .rd => "RD"
  | .wr => "WR"
  | .cload => "CLOAD"
  | .cunload => "CUNLOAD"
  | .hdec => "HDEC"
  | .hchk => "HCHK"
  | .romsz => "ROMSZ"
  | .ramsz => "RAMSZ"
  | .tname => "TNAME"
  | .pname => "PNAME"
  | .hcadd8 => "HCADD8"
  | .cadd8 => "CADD8"
  | .hcsub8 => "HCSUB8"
  | .csub8 => "CSUB8"
  | .hcadd16 => "HCADD16"
  | .cadd16 => "CADD16"
  | .hcsub16 => "HCSUB16"
  | .csub16 => "CSUB16"
  | .sext8 => "SEXT8"

/-- White space between the parts of a line. -/
def isBlank (c : Char) : Bool := c == ' ' || c == '\t'

/-- Text without the white space around it. -/
def trimBlanks (cs : List Char) : List Char := ((cs.dropWhile isBlank).reverse.dropWhile isBlank).reverse

/-- Text cut at every comma. -/
def splitCommas : List Char → List (List Char)
  | [] => [[]]
  | c :: cs =>
    match splitCommas cs with
    | [] => [[c]]
    | part :: parts => if c = ',' then [] :: part :: parts else (c :: part) :: parts

/-- The value of a hexadecimal digit. -/
def digitValue (c : Char) : Option Nat :=
  if '0' ≤ c ∧ c ≤ '9' then some (c.toNat - 48)
  else if 'A' ≤ c ∧ c ≤ 'F' then some (c.toNat - 55)
  else if 'a' ≤ c ∧ c ≤ 'f' then some (c.toNat - 87)
  else none

/-- Digits of a base, most significant first. -/
def readDigits (base acc : Nat) : List Char → Option Nat
  | [] => some acc
  | c :: cs =>
    match digitValue c with
    | none => none
    | some d => if d < base then readDigits base (base * acc + d) cs else none

/-- A number: `0x` and hexadecimal digits, or decimal digits. -/
def readNumber : List Char → Option Nat
  | [] => none
  | ['0', 'x'] => none
  | '0' :: 'x' :: c :: cs => readDigits 16 0 (c :: cs)
  | c :: cs => readDigits 10 0 (c :: cs)

/-- Every operand of a line read as a number. -/
def readNumbers : List (List Char) → Option (List Nat)
  | [] => some []
  | p :: ps =>
    match readNumber (trimBlanks p), readNumbers ps with
    | some n, some ns => some (n :: ns)
    | _, _ => none

/-- The operands after the mnemonic: none where nothing stands there. -/
def readOperands (cs : List Char) : Option (List Nat) :=
  if trimBlanks cs = [] then some [] else readNumbers (splitCommas cs)

/-- The mnemonic a word names. -/
def readMnemonic (cs : List Char) : Option Mnemonic := Mnemonic.all.find? fun m => (mnemonicName m).toList == cs

/-- A line's text without its comment and the white space around it. -/
def lineText (cs : List Char) : List Char := trimBlanks (cs.takeWhile (· ≠ ';'))

/-- One line of assembly: no command for an empty line, else the command or the assembly error (R78). -/
def assembleLine (cs : List Char) : Except AsmError (Option Instr) :=
  if lineText cs = [] then .ok none
  else
    match readMnemonic ((lineText cs).takeWhile (!isBlank ·)) with
    | none => .error .unknownMnemonic
    | some m =>
      match readOperands ((lineText cs).dropWhile (!isBlank ·)) with
      | none => .error .badNumber
      | some ns =>
        match (Line.mk m ns).toInstr with
        | none => .error .badOperands
        | some i => .ok (some i)

end Sys2Proof.Machine
end

