-- ==== Sys2Proof/Safety.lean ====
section
/-! DEFINITION. The terms claims use: the invariant of the machine, reachability, runs of commands, and the read of
one byte of the bus space. -/

namespace Sys2Proof.Machine

/-- What holds of a loaded cartridge (10_state.md R32), with its buffers in canonical form. -/
structure Cart.Consistent (c : Cart) : Prop where
  romWf : c.rom.wf = true
  ramWf : c.ram.wf = true
  hdr : c.hdr = decodeHeader c.raw
  romSize : Config.minRomBytes ≤ c.rom.size
  raw : c.raw = headerSnapshot c.rom
  checksum : verifyChecksum c.rom = true
  ramSize : c.ram.size = (decodeRamSize (c.raw.getD 0x49 0x00)).1

/-- The invariant of the block state: the fixed arrays have their lengths (R21–R24), every array is in canonical
form, and a loaded cartridge is consistent (R32). -/
structure BlockState.Inv (b : BlockState) : Prop where
  vramWf : b.vram.wf = true
  vramSize : b.vram.size = Config.vramSize
  wramWf : b.wram.wf = true
  wramSize : b.wram.size = Config.wramSize
  oamWf : b.oam.wf = true
  oamSize : b.oam.size = Config.oamSize
  hramWf : b.hram.wf = true
  hramSize : b.hram.size = Config.hramSize
  cart : ∀ c, b.slot = .loaded c → c.Consistent

/-- The calls an external delegate has received were all for the I/O region (R37). -/
def IoState.CalledInRegion : IoState → Prop
  | .placeholder => True
  | .external history => ∀ call ∈ history, region call.addr = .io

/-- The invariant of the machine: that of the block, the delegate called for the I/O region only, and every
presented image within R101's side condition. -/
structure State.Inv (s : State) : Prop where
  block : s.block.Inv
  io : s.io.CalledInRegion
  loads : ∀ inp ∈ s.loads, inp.src.wf = true

/-- Where a run can start: console creation, with the delegate the host connected for the whole run (R260, R264). -/
def State.Created (s : State) : Prop := s = State.reset ∨ s = State.reset.setIo .placeholder

/-- The states of a run: the host issues command words and presents images (R37), the machine steps. -/
inductive Reachable : State → Prop where
  | created (s : State) (h : s.Created) : Reachable s
  | issue (s : State) (w : Command) (h : Reachable s) : Reachable (s.setCommands (s.commands ++ [w]))
  | present (s : State) (inp : LoadInput) (wf : inp.src.wf = true) (h : Reachable s) :
      Reachable { s with loads := s.loads ++ [inp] }
  | step (s t : State) (h : Reachable s) (hs : Sys2Proof.Machine.step s = .next t) : Reachable t

/-- A run of commands from a state, as R59 orders them: the state after the last, if every one completes. -/
def runCommands : List Instr → State → Option State
  | [], s => some s
  | i :: is, s =>
    match exec i s with
    | .next t => runCommands is t
    | .fault _ => none
    | .refused _ => none

/-- A CLOAD that fails with a status: it completes, responds `load e false`, consumes its input and changes neither
the block nor the delegate (R14, R110). -/
def State.LoadFailsWith (s : State) (e : LoadStatus) : Prop :=
  exec .cload s = .next { s.takeLoad with resp := some (.load e false) } ∧
    s.takeLoad.block = s.block ∧ s.takeLoad.io = s.io ∧ s.takeLoad.commands = s.commands

/-- The commands RD and WR. -/
def isBusCommand : Instr → Bool
  | .rd _ => true
  | .wr _ _ => true
  | .cload | .cunload | .hdec | .hchk | .romsz _ | .ramsz _ | .tname _ | .pname _ _ | .hcadd8 _ _ | .cadd8 _ _
  | .hcsub8 _ _ | .csub8 _ _ | .hcadd16 _ _ | .cadd16 _ _ | .hcsub16 _ _ | .csub16 _ _ | .sext8 _ => false

/-- Two states a bus requester should not be able to tell apart: they may differ in the raw snapshot, the decoded
header, the ROM bytes past 0x7FFF and the cartridge RAM bytes past 0x1FFF (20_memory.md R51, R52; 10_state.md R29). -/
structure BusEquivalent (s t : State) : Prop where
  vram : s.block.vram = t.block.vram
  wram : s.block.wram = t.block.wram
  oam : s.block.oam = t.block.oam
  hram : s.block.hram = t.block.hram
  ie : s.block.ie = t.block.ie
  io : s.io = t.io
  rom : ∀ i < 0x8000, s.block.romByte i = t.block.romByte i
  ramSize : ∀ o < 0x2000, (o < s.block.ramSize ↔ o < t.block.ramSize)
  ram : ∀ o < 0x2000, s.block.ramByte o = t.block.ramByte o

/-- The byte an RD of the address would respond in a state (R173). -/
def State.peek (s : State) (a : Addr) : Byte := (busRead s.block s.io a).1

end Sys2Proof.Machine
end

