-- ==== Sys2Proof/Certificates/Slice0/Obligations.lean ====
section
/-! DEFINITION. The statements for the provers. Each says which rule of spec/ it formalises; one that rests on an
inference the spec marks as its own, on general knowledge, or on a choice of the model says so. -/

open Sys2Proof Sys2Proof.Machine

/-! ## Encoding -/

/-- Decoding the word of a command gives the command back, with every operand at every value (30_encoding.md R70–R76).
Every `Instr` is well formed by its type. -/
def Obligations.DecodeOfEncodeIsTheCommand : Prop :=
  ∀ i : Instr, decode (encode i) = .ok i

/-- A word that decodes is the one word of its command: no two words of the command port mean the same command. -/
def Obligations.DecodedWordIsTheCommandsWord : Prop :=
  ∀ (w : Command) (i : Instr), decode w = .ok i → encode i = w

/-- Every word matches at most one row of spec/opcode_table.json; it decodes exactly when it matches one, and then
to a command of that row's mnemonic (the decoder is written from the columns of R72, not from that table). -/
def Obligations.DecoderAgreesWithOpcodeTable : Prop :=
  ∀ w : Command,
    (∀ r₁ ∈ opcodeTable, ∀ r₂ ∈ opcodeTable, w &&& r₁.mask = r₁.pattern → w &&& r₂.mask = r₂.pattern → r₁ = r₂) ∧
    ((∃ i, decode w = .ok i) ↔ ∃ r ∈ opcodeTable, w &&& r.mask = r.pattern) ∧
    ∀ i, decode w = .ok i → ∃ r ∈ opcodeTable, r.mnemonic = i.mnemonic ∧ w &&& r.mask = r.pattern

/-- R74: a word with a row's code and a bit of its "must be zero" column set is refused; the step does not happen. -/
def Obligations.ReservedBitSetIsRefused : Prop :=
  ∀ (s : State) (w : Command) (rest : List Command), s.commands = w :: rest →
    ∀ r ∈ opcodeTable, w >>> 32 = r.pattern >>> 32 → w &&& r.mask ≠ r.pattern →
      step s = .refused (.reservedBits r.mnemonic)

/-- R75: the unassigned codes are 0x02–0x0F, 0x12–0x1F, 0x26–0x2F and 0x39–0xFF, and a word with one is refused. -/
def Obligations.UnassignedCodeIsRefused : Prop :=
  ∀ (s : State) (w : Command) (rest : List Command) (op : Nat), s.commands = w :: rest → op = w.toNat / 2 ^ 32 →
    (((0x02 ≤ op ∧ op ≤ 0x0F) ∨ (0x12 ≤ op ∧ op ≤ 0x1F) ∨ (0x26 ≤ op ∧ op ≤ 0x2F) ∨ 0x39 ≤ op) →
      step s = .refused (.unassignedOpcode (BitVec.ofNat 8 op))) ∧
    (¬((0x02 ≤ op ∧ op ≤ 0x0F) ∨ (0x12 ≤ op ∧ op ≤ 0x1F) ∨ (0x26 ≤ op ∧ op ≤ 0x2F) ∨ 0x39 ≤ op) →
      ∃ r ∈ opcodeTable, op = r.pattern.toNat / 2 ^ 32)

/-- Sanity: words of 95_test_vectors.md section 2.1 and of each family decode as written there. -/
def Obligations.WrittenWordsDecode : Prop :=
  decode 0x0000000000 = .ok (.rd 0x0000) ∧ decode 0x01C00000FF = .ok (.wr 0xC000 0xFF) ∧
  decode 0x1000000000 = .ok .cload ∧ decode 0x2000000000 = .ok .hdec ∧
  decode 0x2500FF0001 = .ok (.pname 0x00FF true) ∧ decode 0x34FFFFFFFF = .ok (.hcadd16 0xFFFF 0xFFFF) ∧
  decode 0x3800800000 = .ok (.sext8 0x80) ∧ decode 0x00C0008000 = .error (.reservedBits .rd) ∧
  decode 0x3900000000 = .error (.unassignedOpcode 0x39)

/-- A line assembles exactly when its operands fit their fields (R78), to the command of its mnemonic with those
operands, and every unused and must-be-zero bit of the word is 0. -/
def Obligations.LineAssemblesExactlyWhenOperandsFit : Prop :=
  (∀ l : Line, l.wf = true → ∃ i, l.toInstr = some i ∧ i.mnemonic = l.mnemonic ∧ i.operands = l.operands ∧
    ∃ r ∈ opcodeTable, r.mnemonic = l.mnemonic ∧ encode i &&& r.mask = r.pattern) ∧
  (∀ l : Line, l.wf = false → l.toInstr = none) ∧
  (∀ i : Instr, (Line.mk i.mnemonic i.operands).toInstr = some i)

/-! ## The step -/

/-- Running is decoding the next word of the port and performing it on the state without that word (R3, R59). -/
def Obligations.StepPerformsTheDecodedCommand : Prop :=
  ∀ (s : State) (w : Command) (rest : List Command) (i : Instr), s.commands = w :: rest → decode w = .ok i →
    step s = exec i { s with commands := rest }

/-- The word `withFetchWord` issues is the one the next step performs, and nothing of the state is disturbed by issuing
it. That it stands at the head of the port, before words already waiting, is the model's choice (DESIGN CHOICE, log
entry 4), not a rule of the spec: R59 performs commands in the order of issue. -/
def Obligations.IssuedCommandIsPerformedNext : Prop :=
  ∀ (s : State) (i : Instr), step (s.withFetchWord 40 (encode i).toNat) = exec i s

/-- R251: the step on a command word is refused only for an unassigned code, a set must-be-zero bit, or HDEC or HCHK
on an empty slot; every other command on every state completes, and nothing faults. -/
def Obligations.RefusalsAreOnlyThoseListed : Prop :=
  (∀ (i : Instr) (s : State), (i = .hdec ∨ i = .hchk) ∧ s.block.slot = .empty → exec i s = .refused .emptySlot) ∧
  (∀ (i : Instr) (s : State), ¬((i = .hdec ∨ i = .hchk) ∧ s.block.slot = .empty) → ∃ t, exec i s = .next t) ∧
  (∀ (s : State) (w : Command) (rest : List Command) (r : Refusal), s.commands = w :: rest →
    (step s = .refused r ↔
      ((∃ op, decode w = .error (.unassignedOpcode op) ∧ r = .unassignedOpcode op) ∨
       (∃ m, decode w = .error (.reservedBits m) ∧ r = .reservedBits m) ∨
       ((decode w = .ok .hdec ∨ decode w = .ok .hchk) ∧ s.block.slot = .empty ∧ r = .emptySlot))))

/-! ## The region comparator -/

/-- R171: the region of an address, kind by kind, as the ranges of the comparator. -/
def Obligations.RegionFollowsTheAddressMap : Prop :=
  ∀ a : Addr,
    (region a = .rom0 ↔ a.toNat ≤ 0x3FFF) ∧
    (region a = .romX ↔ 0x4000 ≤ a.toNat ∧ a.toNat ≤ 0x7FFF) ∧
    (region a = .vram ↔ 0x8000 ≤ a.toNat ∧ a.toNat ≤ 0x9FFF) ∧
    (region a = .eram ↔ 0xA000 ≤ a.toNat ∧ a.toNat ≤ 0xBFFF) ∧
    (region a = .wram ↔ 0xC000 ≤ a.toNat ∧ a.toNat ≤ 0xDFFF) ∧
    (region a = .echo ↔ 0xE000 ≤ a.toNat ∧ a.toNat ≤ 0xFDFF) ∧
    (region a = .oam ↔ 0xFE00 ≤ a.toNat ∧ a.toNat ≤ 0xFE9F) ∧
    (region a = .unusable ↔ 0xFEA0 ≤ a.toNat ∧ a.toNat ≤ 0xFEFF) ∧
    (region a = .io ↔ 0xFF00 ≤ a.toNat ∧ a.toNat ≤ 0xFF7F) ∧
    (region a = .hram ↔ 0xFF80 ≤ a.toNat ∧ a.toNat ≤ 0xFFFE) ∧
    (region a = .ie ↔ a.toNat = 0xFFFF)

/-- The comparator is equivalent to the bit patterns of 30_encoding.md section 6 ("equivalent to these bit patterns on
the address", an inference the spec marks as its own), and they give the storage index. -/
def Obligations.RegionIsSelectedByBitPatterns : Prop :=
  ∀ a : Addr,
    (region a = .rom0 ↔ a.extractLsb' 14 2 = 0b00#2) ∧
    (region a = .romX ↔ a.extractLsb' 14 2 = 0b01#2) ∧
    (region a = .vram ↔ a.extractLsb' 13 3 = 0b100#3) ∧
    (region a = .eram ↔ a.extractLsb' 13 3 = 0b101#3) ∧
    (region a = .wram ↔ a.extractLsb' 13 3 = 0b110#3) ∧
    (region a = .echo ↔ a.extractLsb' 13 3 = 0b111#3 ∧ a.extractLsb' 9 4 ≠ 0b1111#4) ∧
    (region a = .oam ↔ a.extractLsb' 8 8 = 0xFE#8 ∧ (a.extractLsb' 0 8).toNat < 0xA0) ∧
    (region a = .unusable ↔ a.extractLsb' 8 8 = 0xFE#8 ∧ 0xA0 ≤ (a.extractLsb' 0 8).toNat) ∧
    (region a = .io ↔ a.extractLsb' 7 9 = 0b111111110#9) ∧
    (region a = .hram ↔ a.extractLsb' 7 9 = 0b111111111#9 ∧ a.extractLsb' 0 7 ≠ 0x7F#7) ∧
    (region a = .ie ↔ a = 0xFFFF#16) ∧
    (region a = .rom0 ∨ region a = .romX → storageIndex a = a.toNat) ∧
    (region a = .vram ∨ region a = .eram ∨ region a = .wram ∨ region a = .echo →
      storageIndex a = (a.extractLsb' 0 13).toNat) ∧
    (region a = .oam → storageIndex a = (a.extractLsb' 0 8).toNat) ∧
    (region a = .hram → storageIndex a = (a.extractLsb' 0 7).toNat)

/-- Two different addresses reach one storage cell exactly when one is in 0xC000–0xDDFF and the other is 0x2000 above
it (43_bus_dispatcher.md section 4, "the only aliases", an inference the spec marks as its own). -/
def Obligations.OnlyTheEchoAliases : Prop :=
  ∀ (b : BlockState) (a a' : Addr), a ≠ a' →
    ((∃ k, cell b a = some k ∧ cell b a' = some k) ↔
      ((0xC000 ≤ a.toNat ∧ a.toNat ≤ 0xDDFF ∧ a'.toNat = a.toNat + 0x2000) ∨
       (0xC000 ≤ a'.toNat ∧ a'.toNat ≤ 0xDDFF ∧ a.toNat = a'.toNat + 0x2000)))

/-! ## RD -/

/-- R175, R176: RD of the ROM area completes with the ROM byte at the address itself, or 0xFF past the end of the
ROM and on an empty slot; nothing but the response port changes. -/
def Obligations.RomAreaRead : Prop :=
  ∀ (s : State) (a : Addr), a.toNat ≤ 0x7FFF →
    ∃ v, exec (.rd a) s = .next { s with resp := some (.byte v) } ∧
      (∀ c, s.block.slot = .loaded c → a.toNat < c.rom.size → v = c.rom.get a.toNat) ∧
      (∀ c, s.block.slot = .loaded c → c.rom.size ≤ a.toNat → v = 0xFF) ∧
      (s.block.slot = .empty → v = 0xFF)

/-- R178, R182, R184, R186, R192, R194: RD of a region with its own array (or of the echo, or of `ie`) completes with
the byte of that array; nothing but the response port changes. -/
def Obligations.ArrayRegionRead : Prop :=
  ∀ (s : State) (a : Addr),
    (0x8000 ≤ a.toNat → a.toNat ≤ 0x9FFF →
      exec (.rd a) s = .next { s with resp := some (.byte (s.block.vram.get (a.toNat - 0x8000))) }) ∧
    (0xC000 ≤ a.toNat → a.toNat ≤ 0xDFFF →
      exec (.rd a) s = .next { s with resp := some (.byte (s.block.wram.get (a.toNat - 0xC000))) }) ∧
    (0xE000 ≤ a.toNat → a.toNat ≤ 0xFDFF → a.toNat - 0xE000 ≤ 0x1DFF ∧
      exec (.rd a) s = .next { s with resp := some (.byte (s.block.wram.get (a.toNat - 0xE000))) }) ∧
    (0xFE00 ≤ a.toNat → a.toNat ≤ 0xFE9F →
      exec (.rd a) s = .next { s with resp := some (.byte (s.block.oam.get (a.toNat - 0xFE00))) }) ∧
    (0xFF80 ≤ a.toNat → a.toNat ≤ 0xFFFE → a.toNat - 0xFF80 ≤ 0x7E ∧
      exec (.rd a) s = .next { s with resp := some (.byte (s.block.hram.get (a.toNat - 0xFF80))) }) ∧
    (a.toNat = 0xFFFF → exec (.rd a) s = .next { s with resp := some (.byte s.block.ie) })

/-- R180: RD of cartridge RAM completes with the RAM byte at the offset, or 0xFF from `ram_size` on and on an empty
slot; nothing but the response port changes. -/
def Obligations.CartridgeRamRead : Prop :=
  ∀ (s : State) (a : Addr), 0xA000 ≤ a.toNat → a.toNat ≤ 0xBFFF →
    ∃ v, exec (.rd a) s = .next { s with resp := some (.byte v) } ∧
      (∀ c, s.block.slot = .loaded c → a.toNat - 0xA000 < c.ram.size → v = c.ram.get (a.toNat - 0xA000)) ∧
      (∀ c, s.block.slot = .loaded c → c.ram.size ≤ a.toNat - 0xA000 → v = 0xFF) ∧
      (s.block.slot = .empty → v = 0xFF)

/-- R188: RD of the unusable range completes with 0x00, always. -/
def Obligations.UnusableRangeRead : Prop :=
  ∀ (s : State) (a : Addr), 0xFEA0 ≤ a.toNat → a.toNat ≤ 0xFEFF →
    exec (.rd a) s = .next { s with resp := some (.byte 0x00) }

/-- R190: RD of the I/O region completes with the delegate's byte for the full address, unchanged; the delegate is
invoked for no other address, so that an RD elsewhere leaves its state as it was. -/
def Obligations.IoReadIsTheDelegates : Prop :=
  ∀ (s : State) (a : Addr),
    (0xFF00 ≤ a.toNat → a.toNat ≤ 0xFF7F →
      exec (.rd a) s = .next { s with io := (s.io.read a).2, resp := some (.byte (s.io.read a).1) }) ∧
    (a.toNat < 0xFF00 ∨ 0xFF7F < a.toNat → ∃ v, exec (.rd a) s = .next { s with resp := some (.byte v) })

/-- R60: RD changes no block state in any region; every address outside the I/O region reads the same afterwards;
and the reference placeholder has no side effect. -/
def Obligations.ReadChangesNoBlockState : Prop :=
  ∀ (s : State) (a : Addr), ∃ t, exec (.rd a) s = .next t ∧ t.block = s.block ∧
    (∀ b, region b ≠ .io → t.peek b = s.peek b) ∧ (s.io = .placeholder → t.io = .placeholder) ∧
    t.commands = s.commands ∧ t.loads = s.loads ∧ t.draws = s.draws

/-! ## WR -/

/-- R179, R183, R185, R187, R193, R195: WR to a region with its own array (or to the echo, or to `ie`) completes
with the one element replaced; nothing else but the response port changes. -/
def Obligations.ArrayRegionWrite : Prop :=
  ∀ (s : State) (a : Addr) (v : Byte),
    (0x8000 ≤ a.toNat → a.toNat ≤ 0x9FFF →
      exec (.wr a v) s = .next { s with
        block := { s.block with vram := s.block.vram.set (a.toNat - 0x8000) v }, resp := some .none }) ∧
    (0xC000 ≤ a.toNat → a.toNat ≤ 0xDFFF →
      exec (.wr a v) s = .next { s with
        block := { s.block with wram := s.block.wram.set (a.toNat - 0xC000) v }, resp := some .none }) ∧
    (0xE000 ≤ a.toNat → a.toNat ≤ 0xFDFF →
      exec (.wr a v) s = .next { s with
        block := { s.block with wram := s.block.wram.set (a.toNat - 0xE000) v }, resp := some .none }) ∧
    (0xFE00 ≤ a.toNat → a.toNat ≤ 0xFE9F →
      exec (.wr a v) s = .next { s with
        block := { s.block with oam := s.block.oam.set (a.toNat - 0xFE00) v }, resp := some .none }) ∧
    (0xFF80 ≤ a.toNat → a.toNat ≤ 0xFFFE →
      exec (.wr a v) s = .next { s with
        block := { s.block with hram := s.block.hram.set (a.toNat - 0xFF80) v }, resp := some .none }) ∧
    (a.toNat = 0xFFFF →
      exec (.wr a v) s = .next { s with block := { s.block with ie := v }, resp := some .none })

/-- R181: WR to cartridge RAM completes with the RAM byte at the offset replaced, or with nothing changed from
`ram_size` on and on an empty slot. -/
def Obligations.CartridgeRamWrite : Prop :=
  ∀ (s : State) (a : Addr) (v : Byte), 0xA000 ≤ a.toNat → a.toNat ≤ 0xBFFF →
    (∀ c, s.block.slot = .loaded c → a.toNat - 0xA000 < c.ram.size →
      exec (.wr a v) s = .next { s with
        block := { s.block with slot := .loaded { c with ram := c.ram.set (a.toNat - 0xA000) v } },
        resp := some .none }) ∧
    (∀ c, s.block.slot = .loaded c → c.ram.size ≤ a.toNat - 0xA000 →
      exec (.wr a v) s = .next { s with resp := some .none }) ∧
    (s.block.slot = .empty → exec (.wr a v) s = .next { s with resp := some .none })

/-- R177, R189: WR to the ROM area or to the unusable range completes and changes nothing but the response port. -/
def Obligations.IgnoredWrites : Prop :=
  ∀ (s : State) (a : Addr) (v : Byte), a.toNat ≤ 0x7FFF ∨ (0xFEA0 ≤ a.toNat ∧ a.toNat ≤ 0xFEFF) →
    exec (.wr a v) s = .next { s with resp := some .none }

/-- R191: WR to the I/O region completes with one call of the delegate, with the full address and the data byte, and
changes no block state. -/
def Obligations.IoWriteIsTheDelegates : Prop :=
  ∀ (s : State) (a : Addr) (v : Byte), 0xFF00 ≤ a.toNat → a.toNat ≤ 0xFF7F →
    exec (.wr a v) s = .next { s with io := s.io.write a v, resp := some .none }

/-- The frame of WR: with `cell` giving the storage cell stored to, every address that does not reach it (all of them
where the write stores nothing) reads as before, outside the I/O region; `ie` but for its own address, the delegate but
for an address of the I/O region, the ROM, the snapshot, the decoded header, every size, every cartridge RAM byte but
the one stored to, the command and image ports and the free-draw counter keep their values (43_bus_dispatcher.md
section 4). -/
def Obligations.WriteChangesOnlyItsCell : Prop :=
  ∀ (s t : State) (a : Addr) (v : Byte), s.Inv → exec (.wr a v) s = .next t →
    (∀ b, region b ≠ .io →
      (cell s.block b = none ∨ cell s.block b ≠ cell s.block a ∨ region a = .rom0 ∨ region a = .romX) →
      t.peek b = s.peek b) ∧
    (a ≠ 0xFFFF → t.block.ie = s.block.ie) ∧
    (region a ≠ .io → t.io = s.io) ∧
    t.block.vram.size = s.block.vram.size ∧ t.block.wram.size = s.block.wram.size ∧
    t.block.oam.size = s.block.oam.size ∧ t.block.hram.size = s.block.hram.size ∧
    (s.block.slot = .empty → t.block.slot = .empty) ∧
    (∀ c, s.block.slot = .loaded c → ∃ c', t.block.slot = .loaded c' ∧ c'.rom = c.rom ∧ c'.raw = c.raw ∧
      c'.hdr = c.hdr ∧ c'.ram.size = c.ram.size ∧
      ∀ o, cell s.block a ≠ some (.ram o) → c'.ram.get o = c.ram.get o) ∧
    t.commands = s.commands ∧ t.loads = s.loads ∧ t.draws = s.draws ∧ t.resp = some .none

/-- R249: RD and WR never fail at any address; where no storage stands behind the address and it is not the
delegate's, the read degrades to a fixed byte, 0xFF or 0x00. -/
def Obligations.BusCommandsNeverFail : Prop :=
  ∀ (s : State) (a : Addr),
    (∃ t v, exec (.rd a) s = .next t ∧ t.resp = some (.byte v) ∧
      (cell s.block a = none → region a ≠ .io → v = 0xFF ∨ v = 0x00)) ∧
    (∀ v, ∃ t, exec (.wr a v) s = .next t ∧ t.resp = some .none)

/-- R61, first part (an inference the spec marks as its own): outside the I/O region, writing a byte twice to one
address leaves the state that writing it once leaves, and reading twice responds the same byte. -/
def Obligations.BusAccessesAreIdempotent : Prop :=
  ∀ (s : State) (a : Addr) (v : Byte), s.Inv → region a ≠ .io →
    (∃ t, exec (.wr a v) s = .next t ∧ exec (.wr a v) t = .next t) ∧
    (∃ t, exec (.rd a) s = .next t ∧ exec (.rd a) t = .next t)

/-- Read after write (43_bus_dispatcher.md section 4, an inference the spec marks as its own): after a WR to an
address that reaches a writable cell, and any commands of which none writes that cell and, for a cartridge RAM cell,
none is CLOAD or CUNLOAD, an RD of any address that reaches the same cell responds the byte written. -/
def Obligations.ReadReturnsTheLastWrittenByte : Prop :=
  ∀ (s t : State) (a a' : Addr) (v : Byte) (between : List Instr) (k : StorageCell), s.Inv →
    cell s.block a' = some k → cell s.block a = some k → (∀ i, k ≠ .rom i) →
    (∀ i ∈ between, (∀ b w, i = .wr b w → cell s.block b ≠ some k) ∧
      ((∃ o, k = .ram o) → i ≠ .cload ∧ i ≠ .cunload)) →
    runCommands (.wr a' v :: between) s = some t →
      exec (.rd a) t = .next { t with resp := some (.byte v) }

/-- The reference placeholder (43_bus_dispatcher.md section 4): 0xCF for the joypad, 0x91 for LCD control, 0xFC for
the background palette and 0xFF elsewhere; writes are discarded. The three register addresses are general knowledge
(log entry 8, PRESUMED). -/
def Obligations.PlaceholderDelegateAnswers : Prop :=
  ∀ (s : State) (a : Addr) (v : Byte), s.io = .placeholder → 0xFF00 ≤ a.toNat → a.toNat ≤ 0xFF7F →
    exec (.wr a v) s = .next { s with resp := some .none } ∧
    exec (.rd a) s = .next { s with resp := some (.byte
      (if a.toNat = 0xFF00 then 0xCF else if a.toNat = 0xFF40 then 0x91 else if a.toNat = 0xFF47 then 0xFC
        else 0xFF)) }

/-! ## CLOAD and CUNLOAD -/

/-- R102, R110, R242, R243, R244, R245, R246: each failing CLOAD, in the order of the source's steps,
completes with its status and changes nothing of the block, the delegate or the command port. (Which input a CLOAD
takes from the image port is the model's choice, log entry 3: no rule is cited for `nextLoad` and `takeLoad`.) -/
def Obligations.FailingLoadsRollBack : Prop :=
  ∀ s : State,
    (s.nextLoad.src = .openFail → s.LoadFailsWith .openFailure) ∧
    ∀ length bytes, s.nextLoad.src = .file length bytes →
      (length < 0x0150 → s.LoadFailsWith .tooSmall) ∧
      (0x0150 ≤ length → s.nextLoad.romAllocOk = false → s.LoadFailsWith .allocationFailure) ∧
      (0x0150 ≤ length → s.nextLoad.romAllocOk = true → bytes.size < length → s.LoadFailsWith .readFailure) ∧
      (0x0150 ≤ length → s.nextLoad.romAllocOk = true → length ≤ bytes.size → verifyChecksum bytes = false →
        s.LoadFailsWith .checksumMismatch) ∧
      (0x0150 ≤ length → s.nextLoad.romAllocOk = true → length ≤ bytes.size → verifyChecksum bytes = true →
        0 < (decodeRamSize (decodeHeader (headerSnapshot bytes)).ramSizeCode).1 → s.nextLoad.ramAllocOk = false →
        s.LoadFailsWith .allocationFailure)

/-- R109, R111: a CLOAD whose file passes every check completes with `load OK unk` and a slot whose
cartridge is the file's: ROM in file order, the snapshot of 0x0100–0x014F, the decoded header, a zeroed RAM of the
RAM-size code's size, whatever the slot held before; the fixed arrays, `ie`, the delegate and the command port keep
their values. (Which input a CLOAD takes from the image port is the model's choice, log entry 3: no rule is cited for
`nextLoad` and `takeLoad`.) -/
def Obligations.SuccessfulLoadFillsTheSlot : Prop :=
  ∀ (s : State) (length : Nat) (bytes : Memory), s.nextLoad.src = .file length bytes → bytes.size = length →
    0x0150 ≤ length → s.nextLoad.romAllocOk = true → verifyChecksum bytes = true →
    (0 < (decodeRamSize (decodeHeader (headerSnapshot bytes)).ramSizeCode).1 → s.nextLoad.ramAllocOk = true) →
    ∃ c unk, exec .cload s = .next { s.takeLoad with
        block := { s.block with slot := .loaded c }, resp := some (.load .ok unk) } ∧
      s.takeLoad.io = s.io ∧ s.takeLoad.commands = s.commands ∧
      c.rom = bytes ∧ c.rom.size = length ∧ c.raw.length = 0x50 ∧
      (∀ j < 0x50, c.raw.getD j 0x00 = bytes.get (0x0100 + j)) ∧ c.hdr = decodeHeader c.raw ∧
      c.ram.size = (decodeRamSize c.hdr.ramSizeCode).1 ∧ (∀ o, c.ram.get o = 0x00) ∧
      unk = (decodeRamSize c.hdr.ramSizeCode).2

/-- What a CLOAD consumes: the input the host presented first, or, where it presented none, a free draw (log entry 3);
the draws are exactly the inputs of R101: each is within its side condition, and each input within it is a draw. -/
def Obligations.LoadInputIsPresentedOrFree : Prop :=
  (∀ (s : State) (inp : LoadInput) (rest : List LoadInput), s.loads = inp :: rest →
    s.nextLoad = inp ∧ s.takeLoad = { s with loads := rest }) ∧
  (∀ s : State, s.loads = [] →
    s.nextLoad = inputOfDraw (Config.freeLoad s.draws) ∧ s.takeLoad = { s with draws := s.draws + 1 }) ∧
  (∀ inp : LoadInput, inp.src.wf = true ↔ ∃ d, inputOfDraw d = inp)

/-- CLOAD completes on every state and every input (60_exceptions.md section 1), with a load status as its response;
whatever the status, the fixed arrays and `ie` survive it (R261 says so of CLOAD and of CUNLOAD), and the delegate
and the command port keep their values; where it fails, the slot is as it was. (That the first presented input is
consumed whatever the status is the model's choice, log entry 3.) -/
def Obligations.LoadAlwaysCompletes : Prop :=
  ∀ s : State, ∃ t st unk, exec .cload s = .next t ∧ t.resp = some (.load st unk) ∧
    t.block = { s.block with slot := t.block.slot } ∧ t.io = s.io ∧ t.commands = s.commands ∧
    t.loads = s.loads.tail ∧ (st ≠ .ok → t.block = s.block ∧ unk = false)

/-- R114: CUNLOAD (the word 0x1100000000) completes on every state with the slot empty, so that both sizes are 0; it
touches nothing else and leaves an empty slot's block as it was; afterwards the ROM area and cartridge RAM read 0xFF,
HDEC and HCHK are refused, and a second CUNLOAD changes nothing. -/
def Obligations.UnloadEmptiesTheSlot : Prop :=
  encode .cunload = 0x1100000000 ∧
  ∀ s : State, ∃ t, exec .cunload s = .next t ∧
    t = { s with block := { s.block with slot := .empty }, resp := some .none } ∧
    t.block.romSize = 0 ∧ t.block.ramSize = 0 ∧ (s.block.slot = .empty → t.block = s.block) ∧
    (∀ a, a.toNat ≤ 0x7FFF ∨ (0xA000 ≤ a.toNat ∧ a.toNat ≤ 0xBFFF) →
      exec (.rd a) t = .next { t with resp := some (.byte 0xFF) }) ∧
    exec .hdec t = .refused .emptySlot ∧ exec .hchk t = .refused .emptySlot ∧ exec .cunload t = .next t

/-- R26: only CLOAD moves the slot from empty to loaded and only CUNLOAD moves it back; the slot is empty at
creation; the sizes are those of the buffers, 0 while the slot is empty. -/
def Obligations.OnlyLoaderCommandsMoveTheSlot : Prop :=
  (∀ (i : Instr) (s t : State), exec i s = .next t →
    (s.block.slot = .empty → t.block.slot ≠ .empty → i = .cload) ∧
    (s.block.slot ≠ .empty → t.block.slot = .empty → i = .cunload)) ∧
  State.reset.block.slot = .empty ∧
  (∀ b : BlockState, b.slot = .empty → b.romSize = 0 ∧ b.ramSize = 0) ∧
  (∀ (b : BlockState) (c : Cart), b.slot = .loaded c → b.romSize = c.rom.size ∧ b.ramSize = c.ram.size)

/-! ## The header parser -/

/-- R131, R132, R133, in terms of the fields of the raw header: what the decoder makes of the title and the CGB and SGB
flags; and, from the licence fields, the licence (R134 gives their offsets too: HeaderFieldsTileTheHeader). -/
def Obligations.DecoderResolvesTitleFlagsAndLicense : Prop :=
  ∀ raw : List Byte,
    (decodeHeader raw).title.length = 17 ∧ (decodeHeader raw).title.getD 16 0xFF = 0x00 ∧
    (∀ k < 15, (decodeHeader raw).title.getD k 0xFF = fieldByte raw .title k) ∧
    ((decodeHeader raw).cgbSupported = true ↔ fieldByte raw .title 15 = 0x80 ∨ fieldByte raw .title 15 = 0xC0) ∧
    ((decodeHeader raw).cgbSupported = true → (decodeHeader raw).title.getD 15 0xFF = 0x00) ∧
    ((decodeHeader raw).cgbSupported = false →
      (decodeHeader raw).title.getD 15 0xFF = fieldByte raw .title 15) ∧
    ((decodeHeader raw).sgbSupported = true ↔ fieldByte raw .sgbFlag 0 = 0x03) ∧
    (fieldByte raw .oldLicense 0 = 0x33 → (decodeHeader raw).license.toNat =
      256 * (fieldByte raw .newLicense 0).toNat + (fieldByte raw .newLicense 1).toNat) ∧
    (fieldByte raw .oldLicense 0 ≠ 0x33 → (decodeHeader raw).license.toNat = (fieldByte raw .oldLicense 0).toNat)

/-- The raw header's layout (10_state.md section 3, general knowledge, log entry 7, PRESUMED): the fields follow each
other from offset 0 and fill exactly 0x50 bytes, the title starts at ROM 0x0134, the decoder copies the type, the two
size codes and the version from raw offsets 0x47, 0x48, 0x49 and 0x4C, and reads the title from 0x34, the new licence
from 0x44, the SGB flag from 0x46 and the old licence from 0x4B. -/
def Obligations.HeaderFieldsTileTheHeader : Prop :=
  (headerLayout .entryPoint).1 = 0x00 ∧
  (∀ p ∈ [(HeaderField.entryPoint, HeaderField.logo), (.logo, .title), (.title, .newLicense),
      (.newLicense, .sgbFlag), (.sgbFlag, .cartType), (.cartType, .romSizeCode), (.romSizeCode, .ramSizeCode),
      (.ramSizeCode, .destination), (.destination, .oldLicense), (.oldLicense, .version),
      (.version, .headerChecksum), (.headerChecksum, .globalChecksum)],
    (headerLayout p.2).1 = (headerLayout p.1).1 + (headerLayout p.1).2) ∧
  (headerLayout .globalChecksum).1 + (headerLayout .globalChecksum).2 = Config.headerBytes ∧
  Config.headerBase + (headerLayout .title).1 = 0x0134 ∧
  ∀ raw : List Byte, (decodeHeader raw).cartType = raw.getD 0x47 0x00 ∧
    (decodeHeader raw).romSizeCode = raw.getD 0x48 0x00 ∧ (decodeHeader raw).ramSizeCode = raw.getD 0x49 0x00 ∧
    (decodeHeader raw).version = raw.getD 0x4C 0x00 ∧
    (∀ k, fieldByte raw .title k = raw.getD (0x34 + k) 0x00) ∧
    fieldByte raw .newLicense 0 = raw.getD 0x44 0x00 ∧ fieldByte raw .newLicense 1 = raw.getD 0x45 0x00 ∧
    fieldByte raw .sgbFlag 0 = raw.getD 0x46 0x00 ∧ fieldByte raw .oldLicense 0 = raw.getD 0x4B 0x00

/-- R149: the visible title is the title register up to its first 0x00, at most 16 bytes, and at most 15 when the
CGB flag is set. -/
def Obligations.VisibleTitleEndsAtTheFirstZero : Prop :=
  ∀ (raw : List Byte) (k : Nat), k = (visibleTitle (decodeHeader raw)).length →
    visibleTitle (decodeHeader raw) = (decodeHeader raw).title.take k ∧
    (decodeHeader raw).title.getD k 0xFF = 0x00 ∧
    (∀ j < k, (decodeHeader raw).title.getD j 0x00 ≠ 0x00) ∧ k ≤ 16 ∧
    ((decodeHeader raw).cgbSupported = true → k ≤ 15)

/-- R136: HDEC (the word 0x2000000000) completes on a loaded slot with the header decoded from the snapshot, changing
no state, and is refused on an empty slot. -/
def Obligations.HdecReportsTheDecodedHeader : Prop :=
  encode .hdec = 0x2000000000 ∧
  ∀ s : State,
    (∀ c, s.block.slot = .loaded c →
      exec .hdec s = .next { s with resp := some (.header (decodeHeader c.raw)) }) ∧
    (s.block.slot = .empty → exec .hdec s = .refused .emptySlot)

/-- R137: HCHK completes on a loaded slot with the answer of the subtract-and-decrement recurrence over ROM
0x0134–0x014C, changing no state (R138's own rule, less its corner cases), and is refused on an empty slot. -/
def Obligations.HchkRunsTheRecurrence : Prop :=
  ∀ (s : State) (f : Nat → Byte),
    (∀ c, s.block.slot = .loaded c → f 0 = 0x00 →
      (∀ n < 25, (f (n + 1)).toNat = ((f n).toNat + 512 - (c.rom.get (0x0134 + n)).toNat - 1) % 256) →
      exec .hchk s = .next { s with resp := some (.bool (decide (f 25 = c.rom.get 0x014D))) }) ∧
    (s.block.slot = .empty → exec .hchk s = .refused .emptySlot)

/-- The closed form of the checksum, `(0 − Σ − 25) mod 256` (42_header_decoder.md section 2, an inference the spec
marks as its own; 90_conflicts.md C1: 25, not 17). -/
def Obligations.ChecksumClosedForm : Prop :=
  ∀ rom : Memory, ((headerChecksum rom).toNat : Int) =
    (0 - (((rom.slice 0x0134 25).map fun v => (v.toNat : Int)).sum) - 25) % 256

/-- Changing one byte of 0x0134–0x014D makes a ROM that verified fail, and changing a byte elsewhere never matters
(42_header_decoder.md section 2, an inference the spec marks as its own; 90_conflicts.md C2). -/
def Obligations.SingleByteChangeBreaksTheChecksum : Prop :=
  ∀ (rom : Memory) (i : Nat) (v : Byte), rom.wf = true →
    (0x0134 ≤ i → i ≤ 0x014D → verifyChecksum rom = true → v ≠ rom.get i → verifyChecksum (rom.set i v) = false) ∧
    (i < 0x0134 ∨ 0x014D < i → verifyChecksum (rom.set i v) = verifyChecksum rom)

/-- R140, R141: ROMSZ (the word `0x22 ‖ 0x00 ‖ code ‖ 0x0000`) completes with the size of the code and the
unknown-code bit, on any state. -/
def Obligations.RomSizeLookup : Prop :=
  ∀ (code : Byte) (s : State), (encode (.romsz code)).toNat = 0x22 * 2 ^ 32 + code.toNat * 2 ^ 16 ∧
    ∃ n unk, exec (.romsz code) s = .next { s with resp := some (.size n unk) } ∧
    (code.toNat ≤ 0x08 → n = 32768 * 2 ^ code.toNat ∧ unk = false) ∧
    (code = 0x52 → n = 72 * 16384 ∧ unk = false) ∧
    (code = 0x53 → n = 80 * 16384 ∧ unk = false) ∧
    (code = 0x54 → n = 96 * 16384 ∧ unk = false) ∧
    ((0x09 ≤ code.toNat ∧ code.toNat ≤ 0x51) ∨ 0x55 ≤ code.toNat → n = 0 ∧ unk = true)

/-- R142, R143: RAMSZ (the word `0x23 ‖ 0x00 ‖ code ‖ 0x0000`) completes with the size of the code and the
unknown-code bit, on any state. -/
def Obligations.RamSizeLookup : Prop :=
  ∀ (code : Byte) (s : State), (encode (.ramsz code)).toNat = 0x23 * 2 ^ 32 + code.toNat * 2 ^ 16 ∧
    ∃ n unk, exec (.ramsz code) s = .next { s with resp := some (.size n unk) } ∧
    (code = 0x00 → n = 0 ∧ unk = false) ∧ (code = 0x01 → n = 2 * 1024 ∧ unk = false) ∧
    (code = 0x02 → n = 8 * 1024 ∧ unk = false) ∧ (code = 0x03 → n = 32 * 1024 ∧ unk = false) ∧
    (code = 0x04 → n = 128 * 1024 ∧ unk = false) ∧ (code = 0x05 → n = 64 * 1024 ∧ unk = false) ∧
    (0x06 ≤ code.toNat → n = 0 ∧ unk = true)

/-- R144, R145: TNAME (the word `0x24 ‖ 0x00 ‖ code ‖ 0x0000`) completes on any state with the table's name, or
"UNKNOWN" where the table has no entry, whatever the open table holds. -/
def Obligations.TypeNameLookup : Prop :=
  ∀ (code : Byte) (s : State), (encode (.tname code)).toNat = 0x24 * 2 ^ 32 + code.toNat * 2 ^ 16 ∧ ∃ n,
    exec (.tname code) s = .next { s with resp := some (.name n) } ∧
    (Config.typeNameTable code = some n ∨
      (Config.typeNameTable code = none ∧ n = "UNKNOWN".toList.map fun c => BitVec.ofNat 8 c.toNat))

/-- R146, R147: PNAME (the word `0x25 ‖ license ‖ 0 ‖ is_old`) completes on any state with the registry's name or
"Unknown", whatever the open tables hold at the keys the spec leaves open; the two fixed entries are "Nintendo", and a
licence above 0xFF is never an old code. -/
def Obligations.PublisherNameLookup : Prop :=
  ∀ (license : Word) (isOld : Bool) (s : State),
    (encode (.pname license isOld)).toNat = 0x25 * 2 ^ 32 + license.toNat * 2 ^ 16 + isOld.toNat ∧ ∃ n,
    exec (.pname license isOld) s = .next { s with resp := some (.name n) } ∧
    (isOld = true → license.toNat = 0x01 → n = "Nintendo".toList.map fun c => BitVec.ofNat 8 c.toNat) ∧
    (isOld = false → license.toNat = 0x3031 → n = "Nintendo".toList.map fun c => BitVec.ofNat 8 c.toNat) ∧
    (isOld = true → 0xFF < license.toNat → n = "Unknown".toList.map fun c => BitVec.ofNat 8 c.toNat) ∧
    (isOld = true → license.toNat ≤ 0xFF → license.toNat ≠ 0x01 →
      Config.oldPublisherOther (license.setWidth 8) = some n ∨
      (Config.oldPublisherOther (license.setWidth 8) = none ∧
        n = "Unknown".toList.map fun c => BitVec.ofNat 8 c.toNat)) ∧
    (isOld = false → license.toNat ≠ 0x3031 →
      Config.newPublisherOther license = some n ∨
      (Config.newPublisherOther license = none ∧ n = "Unknown".toList.map fun c => BitVec.ofNat 8 c.toNat))

/-- The registry of a loaded cartridge's licence (42_header_decoder.md section 4, an inference the spec marks as its
own): RD 0x014B responds the snapshot's old licence byte, the matching `is_old` is that it is not 0x33, and with
`is_old = 1` the decoded licence is a single byte. That the old licence byte lies at ROM 0x014B, raw 0x4B, is general
knowledge (log entry 7, PRESUMED), and the whole statement rests on it. -/
def Obligations.LicenseRegistryIsReadableAt014B : Prop :=
  ∀ (s : State) (c : Cart), s.Inv → s.block.slot = .loaded c →
    exec (.rd 0x014B) s = .next { s with resp := some (.byte (c.raw.getD 0x4B 0x00)) } ∧
    (matchingIsOld c = true ↔ c.raw.getD 0x4B 0x00 ≠ 0x33) ∧
    (matchingIsOld c = true → c.hdr.license.toNat ≤ 0xFF)

/-! ## The utility predicates -/

/-- R221, R222: the 8-bit add predicates, with their words, complete on any state and change none but the response
port. -/
def Obligations.AddPredicatesOnBytes : Prop :=
  ∀ (a b : Byte) (s : State),
    (encode (.hcadd8 a b)).toNat = 0x30 * 2 ^ 32 + a.toNat * 2 ^ 16 + b.toNat ∧
    (encode (.cadd8 a b)).toNat = 0x31 * 2 ^ 32 + a.toNat * 2 ^ 16 + b.toNat ∧
    exec (.hcadd8 a b) s = .next { s with resp := some (.bool (decide (a.toNat % 16 + b.toNat % 16 > 15))) } ∧
    exec (.cadd8 a b) s = .next { s with resp := some (.bool (decide (a.toNat + b.toNat > 255))) }

/-- R223, R224: the 8-bit subtract predicates, with their words, complete on any state and change none but the
response port. -/
def Obligations.SubtractPredicatesOnBytes : Prop :=
  ∀ (a b : Byte) (s : State),
    (encode (.hcsub8 a b)).toNat = 0x32 * 2 ^ 32 + a.toNat * 2 ^ 16 + b.toNat ∧
    (encode (.csub8 a b)).toNat = 0x33 * 2 ^ 32 + a.toNat * 2 ^ 16 + b.toNat ∧
    exec (.hcsub8 a b) s = .next { s with resp := some (.bool (decide (a.toNat % 16 < b.toNat % 16))) } ∧
    exec (.csub8 a b) s = .next { s with resp := some (.bool (decide (a.toNat < b.toNat))) }

/-- R225, R226: the 16-bit add predicates, with their words, complete on any state and change none but the response
port. -/
def Obligations.AddPredicatesOnWords : Prop :=
  ∀ (a b : Word) (s : State),
    (encode (.hcadd16 a b)).toNat = 0x34 * 2 ^ 32 + a.toNat * 2 ^ 16 + b.toNat ∧
    (encode (.cadd16 a b)).toNat = 0x35 * 2 ^ 32 + a.toNat * 2 ^ 16 + b.toNat ∧
    exec (.hcadd16 a b) s = .next { s with
      resp := some (.bool (decide (a.toNat % 4096 + b.toNat % 4096 > 4095))) } ∧
    exec (.cadd16 a b) s = .next { s with resp := some (.bool (decide (a.toNat + b.toNat > 65535))) }

/-- The 16-bit subtract predicates, with their words, complete on any state and change none but the response port (44_utility.md R227,
R228, which the spec marks as its own inference from the 8-bit forms). -/
def Obligations.SubtractPredicatesOnWords : Prop :=
  ∀ (a b : Word) (s : State),
    (encode (.hcsub16 a b)).toNat = 0x36 * 2 ^ 32 + a.toNat * 2 ^ 16 + b.toNat ∧
    (encode (.csub16 a b)).toNat = 0x37 * 2 ^ 32 + a.toNat * 2 ^ 16 + b.toNat ∧
    exec (.hcsub16 a b) s = .next { s with resp := some (.bool (decide (a.toNat % 4096 < b.toNat % 4096))) } ∧
    exec (.csub16 a b) s = .next { s with resp := some (.bool (decide (a.toNat < b.toNat))) }

/-- R229: SEXT8 (the word `0x38 ‖ 0x00 ‖ v ‖ 0x0000`) completes on any state with the byte sign-extended to 16 bits,
as a number and as bits. -/
def Obligations.SignExtensionOfByte : Prop :=
  ∀ (v : Byte) (s : State), (encode (.sext8 v)).toNat = 0x38 * 2 ^ 32 + v.toNat * 2 ^ 16 ∧
    ∃ w : Word, exec (.sext8 v) s = .next { s with resp := some (.word w) } ∧
    w.toInt = v.toInt ∧ (0x80 ≤ v.toNat → w.toNat = 0xFF00 + v.toNat) ∧ (v.toNat < 0x80 → w.toNat = v.toNat)

/-! ## Frames and whole-machine rules -/

/-- The frame of every command but WR, CLOAD and CUNLOAD: the block state, and with it every byte at every address
outside the I/O region, is unchanged, and so are the command port, the image port and the free-draw counter; the
delegate is unchanged but by an RD of the I/O region (44_utility.md R220; 42_header_decoder.md and
43_bus_dispatcher.md say of each "It changes no state"). -/
def Obligations.OnlyStoringCommandsChangeTheBlock : Prop :=
  ∀ (i : Instr) (s t : State), (∀ a v, i ≠ .wr a v) → i ≠ .cload → i ≠ .cunload → exec i s = .next t →
    t.block = s.block ∧ (∀ b, region b ≠ .io → t.peek b = s.peek b) ∧ t.commands = s.commands ∧
    t.loads = s.loads ∧ t.draws = s.draws ∧ ((∀ a, i = .rd a → region a ≠ .io) → t.io = s.io)

/-- The delegate's state changes only by an RD or a WR of the I/O region (10_state.md section 6: "invoked only for
addresses 0xFF00–0xFF7F"; R38). -/
def Obligations.DelegateIsCalledOnlyForIo : Prop :=
  ∀ (i : Instr) (s t : State), exec i s = .next t → t.io ≠ s.io →
    ∃ a, 0xFF00 ≤ a.toNat ∧ a.toNat ≤ 0xFF7F ∧
      ((i = .rd a ∧ t.io = (s.io.read a).2) ∨ ∃ v, i = .wr a v ∧ t.io = s.io.write a v)

/-- What the bus cannot see: from two states that differ only in the raw snapshot, the decoded header, ROM bytes past
0x7FFF and cartridge RAM bytes past 0x1FFF, any run of RD and WR commands gives the same responses and such states
again (20_memory.md section 1 and 10_state.md section 3: no bus address reaches them). -/
def Obligations.BusRunsCannotSeeHiddenCartridgeState : Prop :=
  ∀ (s s' : State) (is : List Instr), s.Inv → s'.Inv → BusEquivalent s s' → (∀ i ∈ is, isBusCommand i = true) →
    ∃ t t', runCommands is s = some t ∧ runCommands is s' = some t' ∧ BusEquivalent t t' ∧
      (is ≠ [] → t.resp = t'.resp)

/-- Two canonical arrays of one size that read the same at every index are the same data (log entry 6). -/
def Obligations.EqualContentsAreEqualArrays : Prop :=
  ∀ m n : Memory, m.wf = true → n.wf = true → m.size = n.size → (∀ i, m.get i = n.get i) → m = n

/-- The machine right after console creation (70_reset_and_hazards.md section 1, 10_state.md section 7): every array
has its size and reads 0x00 throughout, `ie` is 0x00, the slot is empty. (The ports' values are the model's choice,
log entries 1, 3, 4, 5.) -/
def Obligations.CreationStateIsZeroAndEmpty : Prop :=
  State.reset.block.vram.size = 0x2000 ∧ State.reset.block.wram.size = 0x2000 ∧
  State.reset.block.oam.size = 0xA0 ∧ State.reset.block.hram.size = 0x7F ∧
  (∀ i, State.reset.block.vram.get i = 0x00 ∧ State.reset.block.wram.get i = 0x00 ∧
    State.reset.block.oam.get i = 0x00 ∧ State.reset.block.hram.get i = 0x00) ∧
  State.reset.block.ie = 0x00 ∧ State.reset.block.slot = .empty

/-- The invariant holds at console creation. -/
def Obligations.InvariantHoldsAtCreation : Prop :=
  ∀ s : State, s.Created → s.Inv

/-- Every step keeps the invariant, from every state that has it: the fixed arrays keep their lengths and canonical
form, a loaded cartridge stays consistent with its ROM, and the delegate is called for the I/O region only. That the
RAM-size code, by which the RAM is consistent, lies at raw 0x49 is general knowledge (log entry 7, PRESUMED). -/
def Obligations.EveryStepKeepsTheInvariant : Prop :=
  ∀ s t : State, s.Inv → step s = .next t → t.Inv

/-- In every reachable state with a loaded cartridge, the five facts of 10_state.md section 3 hold (an inference the
spec marks as its own), the slot is loaded exactly when `rom_size` is not 0, and HCHK responds true. That the RAM-size
code, by which the RAM's length is given, lies at raw 0x49 is general knowledge (log entry 7, PRESUMED). -/
def Obligations.ReachableCartridgesAreConsistent : Prop :=
  ∀ s : State, Reachable s →
    (∀ c, s.block.slot = .loaded c →
      c.hdr = decodeHeader c.raw ∧ 0x0150 ≤ c.rom.size ∧ c.raw.length = 0x50 ∧
      (∀ j < 0x50, c.raw.getD j 0x00 = c.rom.get (0x0100 + j)) ∧ verifyChecksum c.rom = true ∧
      c.ram.size = (decodeRamSize (c.raw.getD 0x49 0x00)).1 ∧
      exec .hchk s = .next { s with resp := some (.bool true) }) ∧
    (s.block.romSize ≠ 0 ↔ ∃ c, s.block.slot = .loaded c)
end

