-- ==== Sys2Proof/Laws/Encoding.lean ====
section
/-! SUPPORT. The fields of a command word made of its parts, and the low byte of a widened operand. -/

namespace Sys2Proof

theorem toNat_word (o : Byte) (a b : Word) :
    (o ++ a ++ b : Command).toNat = (o.toNat * 2 ^ 16 + a.toNat) * 2 ^ 16 + b.toNat := by
  rw [BitVec.toNat_append, BitVec.toNat_append]
  have ha := a.isLt
  have hb := b.isLt
  rw [← Nat.shiftLeft_add_eq_or_of_lt ha, ← Nat.shiftLeft_add_eq_or_of_lt hb, Nat.shiftLeft_eq, Nat.shiftLeft_eq]

theorem opField_toNat (w : Command) : (opField w).toNat = w.toNat / 2 ^ 32 := by
  have := w.isLt
  rw [opField, BitVec.extractLsb'_toNat, Nat.shiftRight_eq_div_pow]
  omega

theorem fieldA_toNat (w : Command) : (fieldA w).toNat = w.toNat / 2 ^ 16 % 2 ^ 16 := by
  rw [fieldA, BitVec.extractLsb'_toNat, Nat.shiftRight_eq_div_pow]

theorem fieldB_toNat (w : Command) : (fieldB w).toNat = w.toNat % 2 ^ 16 := by
  rw [fieldB, BitVec.extractLsb'_toNat, Nat.shiftRight_zero]

@[simp] theorem opField_word (o : Byte) (a b : Word) : opField (o ++ a ++ b) = o := by
  apply BitVec.eq_of_toNat_eq
  have := a.isLt; have := b.isLt
  rw [opField_toNat, toNat_word]; omega

@[simp] theorem fieldA_word (o : Byte) (a b : Word) : fieldA (o ++ a ++ b) = a := by
  apply BitVec.eq_of_toNat_eq
  have := a.isLt; have := b.isLt
  rw [fieldA_toNat, toNat_word]; omega

@[simp] theorem fieldB_word (o : Byte) (a b : Word) : fieldB (o ++ a ++ b) = b := by
  apply BitVec.eq_of_toNat_eq
  have := a.isLt; have := b.isLt
  rw [fieldB_toNat, toNat_word]; omega

/-- A word is its three fields. -/
theorem word_of_fields (w : Command) : opField w ++ fieldA w ++ fieldB w = w := by
  apply BitVec.eq_of_toNat_eq
  have := w.isLt
  rw [toNat_word, opField_toNat, fieldA_toNat, fieldB_toNat]; omega

@[simp] theorem lowByte_setWidth (v : Byte) : lowByte (v.setWidth 16) = v := by
  apply BitVec.eq_of_toNat_eq
  have := v.isLt
  simp [lowByte, BitVec.extractLsb'_toNat]; omega

@[simp] theorem setWidth_and_high (v : Byte) : v.setWidth 16 &&& 0xFF00#16 = 0#16 := by
  ext i h
  simp only [BitVec.getElem_and, BitVec.getElem_setWidth]
  by_cases hi : i < 8
  · interval_cases i <;> simp
  · simp [BitVec.getLsbD_of_ge v i (by omega)]

/-- Fields are masked one by one. -/
theorem word_and (o o' : Byte) (a a' b b' : Word) :
    (o ++ a ++ b : Command) &&& (o' ++ a' ++ b') = (o &&& o') ++ (a &&& a') ++ (b &&& b') := by
  rw [BitVec.and_append, BitVec.and_append]

end Sys2Proof
end

