-- ==== Sys2Proof/Laws/State.lean ====
section
/-! SUPPORT. One lemma per field per update of the state, so that no later proof unfolds a record update. -/

namespace Sys2Proof.Machine

@[simp] theorem State.setBlock_block (s : State) (b : BlockState) : (s.setBlock b).block = b := rfl
@[simp] theorem State.setBlock_io (s : State) (b : BlockState) : (s.setBlock b).io = s.io := rfl
@[simp] theorem State.setBlock_commands (s : State) (b : BlockState) : (s.setBlock b).commands = s.commands := rfl
@[simp] theorem State.setBlock_loads (s : State) (b : BlockState) : (s.setBlock b).loads = s.loads := rfl
@[simp] theorem State.setBlock_resp (s : State) (b : BlockState) : (s.setBlock b).resp = s.resp := rfl
@[simp] theorem State.setBlock_draws (s : State) (b : BlockState) : (s.setBlock b).draws = s.draws := rfl

@[simp] theorem State.setIo_block (s : State) (io : IoState) : (s.setIo io).block = s.block := rfl
@[simp] theorem State.setIo_io (s : State) (io : IoState) : (s.setIo io).io = io := rfl
@[simp] theorem State.setIo_commands (s : State) (io : IoState) : (s.setIo io).commands = s.commands := rfl
@[simp] theorem State.setIo_loads (s : State) (io : IoState) : (s.setIo io).loads = s.loads := rfl
@[simp] theorem State.setIo_resp (s : State) (io : IoState) : (s.setIo io).resp = s.resp := rfl
@[simp] theorem State.setIo_draws (s : State) (io : IoState) : (s.setIo io).draws = s.draws := rfl

@[simp] theorem State.setCommands_block (s : State) (ws : List Command) : (s.setCommands ws).block = s.block := rfl
@[simp] theorem State.setCommands_io (s : State) (ws : List Command) : (s.setCommands ws).io = s.io := rfl
@[simp] theorem State.setCommands_commands (s : State) (ws : List Command) : (s.setCommands ws).commands = ws := rfl
@[simp] theorem State.setCommands_loads (s : State) (ws : List Command) : (s.setCommands ws).loads = s.loads := rfl
@[simp] theorem State.setCommands_resp (s : State) (ws : List Command) : (s.setCommands ws).resp = s.resp := rfl
@[simp] theorem State.setCommands_draws (s : State) (ws : List Command) : (s.setCommands ws).draws = s.draws := rfl

@[simp] theorem State.setResp_block (s : State) (r : Resp) : (s.setResp r).block = s.block := rfl
@[simp] theorem State.setResp_io (s : State) (r : Resp) : (s.setResp r).io = s.io := rfl
@[simp] theorem State.setResp_commands (s : State) (r : Resp) : (s.setResp r).commands = s.commands := rfl
@[simp] theorem State.setResp_loads (s : State) (r : Resp) : (s.setResp r).loads = s.loads := rfl
@[simp] theorem State.setResp_resp (s : State) (r : Resp) : (s.setResp r).resp = some r := rfl
@[simp] theorem State.setResp_draws (s : State) (r : Resp) : (s.setResp r).draws = s.draws := rfl

@[simp] theorem State.takeLoad_block (s : State) : s.takeLoad.block = s.block := by
  unfold State.takeLoad; split <;> rfl
@[simp] theorem State.takeLoad_io (s : State) : s.takeLoad.io = s.io := by
  unfold State.takeLoad; split <;> rfl
@[simp] theorem State.takeLoad_commands (s : State) : s.takeLoad.commands = s.commands := by
  unfold State.takeLoad; split <;> rfl
@[simp] theorem State.takeLoad_resp (s : State) : s.takeLoad.resp = s.resp := by
  unfold State.takeLoad; split <;> rfl

@[simp] theorem State.takeLoad_loads (s : State) : s.takeLoad.loads = s.loads.tail := by
  unfold State.takeLoad; split <;> simp_all

@[simp] theorem State.respond_eq (s : State) (r : Resp) : s.respond r = .next (s.setResp r) := rfl

@[simp] theorem BlockState.setVram_vram (b : BlockState) (i : Nat) (v : Byte) : (b.setVram i v).vram = b.vram.set i v := rfl
@[simp] theorem BlockState.setVram_wram (b : BlockState) (i : Nat) (v : Byte) : (b.setVram i v).wram = b.wram := rfl
@[simp] theorem BlockState.setVram_oam (b : BlockState) (i : Nat) (v : Byte) : (b.setVram i v).oam = b.oam := rfl
@[simp] theorem BlockState.setVram_hram (b : BlockState) (i : Nat) (v : Byte) : (b.setVram i v).hram = b.hram := rfl
@[simp] theorem BlockState.setVram_ie (b : BlockState) (i : Nat) (v : Byte) : (b.setVram i v).ie = b.ie := rfl
@[simp] theorem BlockState.setVram_slot (b : BlockState) (i : Nat) (v : Byte) : (b.setVram i v).slot = b.slot := rfl

@[simp] theorem BlockState.setWram_vram (b : BlockState) (i : Nat) (v : Byte) : (b.setWram i v).vram = b.vram := rfl
@[simp] theorem BlockState.setWram_wram (b : BlockState) (i : Nat) (v : Byte) : (b.setWram i v).wram = b.wram.set i v := rfl
@[simp] theorem BlockState.setWram_oam (b : BlockState) (i : Nat) (v : Byte) : (b.setWram i v).oam = b.oam := rfl
@[simp] theorem BlockState.setWram_hram (b : BlockState) (i : Nat) (v : Byte) : (b.setWram i v).hram = b.hram := rfl
@[simp] theorem BlockState.setWram_ie (b : BlockState) (i : Nat) (v : Byte) : (b.setWram i v).ie = b.ie := rfl
@[simp] theorem BlockState.setWram_slot (b : BlockState) (i : Nat) (v : Byte) : (b.setWram i v).slot = b.slot := rfl

@[simp] theorem BlockState.setOam_vram (b : BlockState) (i : Nat) (v : Byte) : (b.setOam i v).vram = b.vram := rfl
@[simp] theorem BlockState.setOam_wram (b : BlockState) (i : Nat) (v : Byte) : (b.setOam i v).wram = b.wram := rfl
@[simp] theorem BlockState.setOam_oam (b : BlockState) (i : Nat) (v : Byte) : (b.setOam i v).oam = b.oam.set i v := rfl
@[simp] theorem BlockState.setOam_hram (b : BlockState) (i : Nat) (v : Byte) : (b.setOam i v).hram = b.hram := rfl
@[simp] theorem BlockState.setOam_ie (b : BlockState) (i : Nat) (v : Byte) : (b.setOam i v).ie = b.ie := rfl
@[simp] theorem BlockState.setOam_slot (b : BlockState) (i : Nat) (v : Byte) : (b.setOam i v).slot = b.slot := rfl

@[simp] theorem BlockState.setHram_vram (b : BlockState) (i : Nat) (v : Byte) : (b.setHram i v).vram = b.vram := rfl
@[simp] theorem BlockState.setHram_wram (b : BlockState) (i : Nat) (v : Byte) : (b.setHram i v).wram = b.wram := rfl
@[simp] theorem BlockState.setHram_oam (b : BlockState) (i : Nat) (v : Byte) : (b.setHram i v).oam = b.oam := rfl
@[simp] theorem BlockState.setHram_hram (b : BlockState) (i : Nat) (v : Byte) : (b.setHram i v).hram = b.hram.set i v := rfl
@[simp] theorem BlockState.setHram_ie (b : BlockState) (i : Nat) (v : Byte) : (b.setHram i v).ie = b.ie := rfl
@[simp] theorem BlockState.setHram_slot (b : BlockState) (i : Nat) (v : Byte) : (b.setHram i v).slot = b.slot := rfl

@[simp] theorem BlockState.setIe_vram (b : BlockState) (v : Byte) : (b.setIe v).vram = b.vram := rfl
@[simp] theorem BlockState.setIe_wram (b : BlockState) (v : Byte) : (b.setIe v).wram = b.wram := rfl
@[simp] theorem BlockState.setIe_oam (b : BlockState) (v : Byte) : (b.setIe v).oam = b.oam := rfl
@[simp] theorem BlockState.setIe_hram (b : BlockState) (v : Byte) : (b.setIe v).hram = b.hram := rfl
@[simp] theorem BlockState.setIe_ie (b : BlockState) (v : Byte) : (b.setIe v).ie = v := rfl
@[simp] theorem BlockState.setIe_slot (b : BlockState) (v : Byte) : (b.setIe v).slot = b.slot := rfl

@[simp] theorem BlockState.setSlot_vram (b : BlockState) (sl : Slot) : (b.setSlot sl).vram = b.vram := rfl
@[simp] theorem BlockState.setSlot_wram (b : BlockState) (sl : Slot) : (b.setSlot sl).wram = b.wram := rfl
@[simp] theorem BlockState.setSlot_oam (b : BlockState) (sl : Slot) : (b.setSlot sl).oam = b.oam := rfl
@[simp] theorem BlockState.setSlot_hram (b : BlockState) (sl : Slot) : (b.setSlot sl).hram = b.hram := rfl
@[simp] theorem BlockState.setSlot_ie (b : BlockState) (sl : Slot) : (b.setSlot sl).ie = b.ie := rfl
@[simp] theorem BlockState.setSlot_slot (b : BlockState) (sl : Slot) : (b.setSlot sl).slot = sl := rfl

@[simp] theorem BlockState.setRam_vram (b : BlockState) (o : Nat) (v : Byte) : (b.setRam o v).vram = b.vram := by
  unfold BlockState.setRam; split <;> (try split) <;> rfl
@[simp] theorem BlockState.setRam_wram (b : BlockState) (o : Nat) (v : Byte) : (b.setRam o v).wram = b.wram := by
  unfold BlockState.setRam; split <;> (try split) <;> rfl
@[simp] theorem BlockState.setRam_oam (b : BlockState) (o : Nat) (v : Byte) : (b.setRam o v).oam = b.oam := by
  unfold BlockState.setRam; split <;> (try split) <;> rfl
@[simp] theorem BlockState.setRam_hram (b : BlockState) (o : Nat) (v : Byte) : (b.setRam o v).hram = b.hram := by
  unfold BlockState.setRam; split <;> (try split) <;> rfl
@[simp] theorem BlockState.setRam_ie (b : BlockState) (o : Nat) (v : Byte) : (b.setRam o v).ie = b.ie := by
  unfold BlockState.setRam; split <;> (try split) <;> rfl

/-- Everything a cartridge RAM write does to the slot (R181): one byte of a loaded cartridge's RAM in range, else
nothing. -/
theorem BlockState.setRam_slot (b : BlockState) (o : Nat) (v : Byte) :
    (b.setRam o v).slot = b.slot ∨
      ∃ c, b.slot = .loaded c ∧ o < c.ram.size ∧ (b.setRam o v).slot = .loaded { c with ram := c.ram.set o v } := by
  unfold BlockState.setRam
  cases h : b.slot with
  | empty => simp [h]
  | loaded c => by_cases ho : o < c.ram.size <;> simp [ho, h]

end Sys2Proof.Machine
end

