-- ==== Sys2Proof/Laws/Memory.lean ====
section
/-! SUPPORT. The byte arrays: a read after a write, and every operation keeps the canonical form. -/

namespace Sys2Proof.Machine

@[simp] theorem Memory.set_size (m : Memory) (i : Nat) (v : Byte) : (m.set i v).size = m.size := rfl
@[simp] theorem Memory.zeros_size (n : Nat) : (Memory.zeros n).size = n := rfl
@[simp] theorem Memory.zeros_get (n i : Nat) : (Memory.zeros n).get i = 0x00 := rfl
@[simp] theorem Memory.zeros_wf (n : Nat) : (Memory.zeros n).wf = true := rfl

/-- A canonical list from `lo` up is canonical from any lower bound. -/
theorem cellsWf_mono {lo lo' hi : Nat} (h : lo' ≤ lo) :
    ∀ {cs : List Host.Cell}, cellsWf lo hi cs = true → cellsWf lo' hi cs = true
  | [], _ => rfl
  | (i, v) :: rest, hc => by
    simp only [cellsWf, Bool.and_eq_true, decide_eq_true_eq] at hc ⊢
    exact ⟨⟨⟨by omega, hc.1.1.2⟩, hc.1.2⟩, hc.2⟩

/-- Below its lower bound a canonical list lists nothing. -/
theorem getCell_below {lo hi i : Nat} (h : i < lo) :
    ∀ {cs : List Host.Cell}, cellsWf lo hi cs = true → getCell i cs = Memory.unlisted
  | [], _ => rfl
  | (j, w) :: rest, hc => by
    simp only [cellsWf, Bool.and_eq_true, decide_eq_true_eq] at hc
    have : ¬ j < i := by omega
    have : ¬ j = i := by omega
    simp [getCell, *]

theorem cellsWf_consCell {lo hi i : Nat} {v : Byte} {cs : List Host.Cell} (hlo : lo ≤ i) (hhi : i < hi)
    (hc : cellsWf (i + 1) hi cs = true) : cellsWf lo hi (consCell i v cs) = true := by
  unfold consCell
  split
  · exact cellsWf_mono (by omega) hc
  · simp [cellsWf, *]

theorem getCell_consCell {hi i : Nat} {v : Byte} {cs : List Host.Cell} (hc : cellsWf (i + 1) hi cs = true)
    (j : Nat) : getCell j (consCell i v cs) = if j = i then v else if j < i then Memory.unlisted else getCell j cs := by
  unfold consCell
  split
  · rename_i hv
    rcases Nat.lt_trichotomy j i with h | h | h
    · rw [getCell_below (lo := i + 1) (by omega) hc, if_neg (by omega), if_pos h]
    · rw [getCell_below (lo := i + 1) (by omega) hc, if_pos h, hv]
    · rw [if_neg (by omega), if_neg (by omega)]
  · rcases Nat.lt_trichotomy j i with h | h | h
    · simp [getCell, h, Nat.ne_of_gt h, Nat.ne_of_lt h, show ¬ i < j by omega]
    · simp [getCell, h]
    · simp [getCell, h, show ¬ j = i by omega, show ¬ j < i by omega]

/-- Replacing a byte keeps the canonical form. -/
theorem cellsWf_setCell {hi i : Nat} {v : Byte} (hhi : i < hi) :
    ∀ {lo : Nat} {cs : List Host.Cell}, lo ≤ i → cellsWf lo hi cs = true → cellsWf lo hi (setCell i v cs) = true
  | lo, [], hlo, _ => cellsWf_consCell hlo hhi rfl
  | lo, (j, w) :: rest, hlo, hc => by
    have hc' := hc
    simp only [cellsWf, Bool.and_eq_true, decide_eq_true_eq] at hc
    unfold setCell
    split
    · rename_i hj
      simp only [cellsWf, Bool.and_eq_true, decide_eq_true_eq]
      exact ⟨hc.1, cellsWf_setCell hhi (by omega) hc.2⟩
    · split
      · rename_i hji
        subst hji
        exact cellsWf_consCell hlo hhi hc.2
      · refine cellsWf_consCell hlo hhi ?_
        simp only [cellsWf, Bool.and_eq_true, decide_eq_true_eq]
        exact ⟨⟨⟨by omega, hc.1.1.2⟩, hc.1.2⟩, hc.2⟩

/-- The list with a byte replaced reads that byte at its index and the old bytes elsewhere. -/
theorem getCell_setCell {hi i : Nat} {v : Byte} (j : Nat) :
    ∀ {lo : Nat} {cs : List Host.Cell}, cellsWf lo hi cs = true →
      getCell j (setCell i v cs) = if j = i then v else getCell j cs
  | _, [], _ => by
    rw [setCell, getCell_consCell (hi := hi) rfl]
    split
    · rfl
    · split <;> rfl
  | lo, (k, w) :: rest, hc => by
    have hc' := hc
    simp only [cellsWf, Bool.and_eq_true, decide_eq_true_eq] at hc
    unfold setCell
    split
    · rename_i hk
      by_cases hkj : k < j
      · simp only [getCell, if_pos hkj, getCell_setCell j hc.2]
      · rw [if_neg (show ¬ j = i by omega)]
        simp only [getCell, if_neg hkj]
    · split
      · rename_i hki
        subst hki
        rw [getCell_consCell hc.2]
        rcases Nat.lt_trichotomy j k with h | h | h
        · simp [getCell, h, Nat.ne_of_lt h, show ¬ k < j by omega, show ¬ k = j by omega]
        · simp [h]
        · simp [getCell, h, show ¬ j = k by omega, show ¬ j < k by omega]
      · have hcons : cellsWf (i + 1) hi ((k, w) :: rest) = true := by
          simp only [cellsWf, Bool.and_eq_true, decide_eq_true_eq]
          exact ⟨⟨⟨by omega, hc.1.1.2⟩, hc.1.2⟩, hc.2⟩
        rw [getCell_consCell hcons]
        split
        · rfl
        · split
          · rename_i _ hji
            rw [getCell_below (lo := i + 1) (by omega) hcons]
          · rfl

/-- `A[i] <- v` keeps the canonical form (R13). -/
theorem Memory.set_wf {m : Memory} {i : Nat} (v : Byte) (hm : m.wf = true) (hi : i < m.size) :
    (m.set i v).wf = true :=
  cellsWf_setCell hi (Nat.zero_le _) hm

/-- `A[i] <- v` replaces element `i` and leaves every other element unchanged (R13). -/
theorem Memory.get_set {m : Memory} (hm : m.wf = true) (i j : Nat) (v : Byte) :
    (m.set i v).get j = if j = i then v else m.get j :=
  getCell_setCell j hm

/-- A canonical array reads as `unlisted` from its size up. -/
theorem getCell_above {hi i : Nat} (h : hi ≤ i) :
    ∀ {lo : Nat} {cs : List Host.Cell}, cellsWf lo hi cs = true → getCell i cs = Memory.unlisted
  | _, [], _ => rfl
  | _, (j, w) :: rest, hc => by
    simp only [cellsWf, Bool.and_eq_true, decide_eq_true_eq] at hc
    have : j < i := by omega
    simp [getCell, this, getCell_above h hc.2]

theorem Memory.get_above {m : Memory} (hm : m.wf = true) {i : Nat} (h : m.size ≤ i) : m.get i = 0x00 :=
  getCell_above h hm

theorem cellsWf_cellsFrom : ∀ (i : Nat) (bs : List Byte), cellsWf i (i + bs.length) (cellsFrom i bs) = true
  | _, [] => rfl
  | i, v :: rest => by
    have h := cellsWf_cellsFrom (i + 1) rest
    rw [show i + 1 + rest.length = i + (v :: rest).length by simp; omega] at h
    exact cellsWf_consCell (Nat.le_refl _) (by simp) h

theorem getCell_cellsFrom : ∀ (i : Nat) (bs : List Byte) (j : Nat), i ≤ j →
    getCell j (cellsFrom i bs) = bs.getD (j - i) 0x00
  | _, [], _, _ => rfl
  | i, v :: rest, j, h => by
    rw [cellsFrom, getCell_consCell (cellsWf_cellsFrom (i + 1) rest)]
    rcases Nat.lt_or_eq_of_le h with h | h
    · rw [if_neg (by omega), if_neg (by omega), getCell_cellsFrom (i + 1) rest j (by omega),
        show j - i = j - (i + 1) + 1 by omega, List.getD_cons_succ]
    · subst h
      simp

/-- An array made of bytes is canonical. -/
@[simp] theorem Memory.ofBytes_wf (bs : List Byte) : (Memory.ofBytes bs).wf = true := by
  have h := cellsWf_cellsFrom 0 bs
  simpa [Memory.wf, Memory.ofBytes] using h

@[simp] theorem Memory.ofBytes_size (bs : List Byte) : (Memory.ofBytes bs).size = bs.length := rfl

/-- An array made of bytes holds them in order. -/
theorem Memory.ofBytes_get (bs : List Byte) (i : Nat) : (Memory.ofBytes bs).get i = bs.getD i 0x00 :=
  getCell_cellsFrom 0 bs i (Nat.zero_le _)

@[simp] theorem Memory.slice_length (m : Memory) (lo n : Nat) : (m.slice lo n).length = n := by
  simp [Memory.slice]

/-- `A[lo .. lo+n-1]` holds the bytes of `A` from `lo` up (R13). -/
theorem Memory.slice_getD (m : Memory) (lo n k : Nat) (h : k < n) : (m.slice lo n).getD k 0x00 = m.get (lo + k) := by
  simp [Memory.slice, List.getD, h]

/-- Every free draw is an image within R101's side condition. -/
@[simp] theorem inputOfDraw_wf (d : Config.LoadDraw) : (inputOfDraw d).src.wf = true := by
  unfold inputOfDraw
  cases d.opens <;> simp [ImageSource.wf]

end Sys2Proof.Machine
end

