-- ==== Sys2Proof/Laws/Region.lean ====
section
/-! SUPPORT. The region comparator as ranges, and what the bus does in each: one lemma per range, which later proofs
cite instead of unfolding the comparator. -/

namespace Sys2Proof.Machine

theorem region_rom0 {a : Addr} (h : a.toNat < 0x4000) : region a = .rom0 := by simp [region, h]
theorem region_romX {a : Addr} (h : 0x4000 ≤ a.toNat) (h' : a.toNat < 0x8000) : region a = .romX := by
  simp [region, h', show ¬ a.toNat < 0x4000 by omega]
theorem region_vram {a : Addr} (h : 0x8000 ≤ a.toNat) (h' : a.toNat < 0xA000) : region a = .vram := by
  simp [region, h', show ¬ a.toNat < 0x4000 by omega, show ¬ a.toNat < 0x8000 by omega]
theorem region_eram {a : Addr} (h : 0xA000 ≤ a.toNat) (h' : a.toNat < 0xC000) : region a = .eram := by
  simp [region, h', show ¬ a.toNat < 0x4000 by omega, show ¬ a.toNat < 0x8000 by omega,
    show ¬ a.toNat < 0xA000 by omega]
theorem region_wram {a : Addr} (h : 0xC000 ≤ a.toNat) (h' : a.toNat < 0xE000) : region a = .wram := by
  simp [region, h', show ¬ a.toNat < 0x4000 by omega, show ¬ a.toNat < 0x8000 by omega,
    show ¬ a.toNat < 0xA000 by omega, show ¬ a.toNat < 0xC000 by omega]
theorem region_echo {a : Addr} (h : 0xE000 ≤ a.toNat) (h' : a.toNat < 0xFE00) : region a = .echo := by
  simp [region, h', show ¬ a.toNat < 0x4000 by omega, show ¬ a.toNat < 0x8000 by omega,
    show ¬ a.toNat < 0xA000 by omega, show ¬ a.toNat < 0xC000 by omega, show ¬ a.toNat < 0xE000 by omega]
theorem region_oam {a : Addr} (h : 0xFE00 ≤ a.toNat) (h' : a.toNat < 0xFEA0) : region a = .oam := by
  simp [region, h', show ¬ a.toNat < 0x4000 by omega, show ¬ a.toNat < 0x8000 by omega,
    show ¬ a.toNat < 0xA000 by omega, show ¬ a.toNat < 0xC000 by omega, show ¬ a.toNat < 0xE000 by omega,
    show ¬ a.toNat < 0xFE00 by omega]
theorem region_unusable {a : Addr} (h : 0xFEA0 ≤ a.toNat) (h' : a.toNat < 0xFF00) : region a = .unusable := by
  simp [region, h', show ¬ a.toNat < 0x4000 by omega, show ¬ a.toNat < 0x8000 by omega,
    show ¬ a.toNat < 0xA000 by omega, show ¬ a.toNat < 0xC000 by omega, show ¬ a.toNat < 0xE000 by omega,
    show ¬ a.toNat < 0xFE00 by omega, show ¬ a.toNat < 0xFEA0 by omega]
theorem region_io {a : Addr} (h : 0xFF00 ≤ a.toNat) (h' : a.toNat < 0xFF80) : region a = .io := by
  simp [region, h', show ¬ a.toNat < 0x4000 by omega, show ¬ a.toNat < 0x8000 by omega,
    show ¬ a.toNat < 0xA000 by omega, show ¬ a.toNat < 0xC000 by omega, show ¬ a.toNat < 0xE000 by omega,
    show ¬ a.toNat < 0xFE00 by omega, show ¬ a.toNat < 0xFEA0 by omega, show ¬ a.toNat < 0xFF00 by omega]
theorem region_hram {a : Addr} (h : 0xFF80 ≤ a.toNat) (h' : a.toNat < 0xFFFF) : region a = .hram := by
  simp [region, h', show ¬ a.toNat < 0x4000 by omega, show ¬ a.toNat < 0x8000 by omega,
    show ¬ a.toNat < 0xA000 by omega, show ¬ a.toNat < 0xC000 by omega, show ¬ a.toNat < 0xE000 by omega,
    show ¬ a.toNat < 0xFE00 by omega, show ¬ a.toNat < 0xFEA0 by omega, show ¬ a.toNat < 0xFF00 by omega,
    show ¬ a.toNat < 0xFF80 by omega]
theorem region_ie {a : Addr} (h : a = 0xFFFF) : region a = .ie := by subst h; rfl

/-- The range of addresses behind each region kind: the inverse of the comparator (R171). -/
theorem region_bounds (a : Addr) :
    match region a with
    | .rom0 => a.toNat < 0x4000
    | .romX => 0x4000 ≤ a.toNat ∧ a.toNat < 0x8000
    | .vram => 0x8000 ≤ a.toNat ∧ a.toNat < 0xA000
    | .eram => 0xA000 ≤ a.toNat ∧ a.toNat < 0xC000
    | .wram => 0xC000 ≤ a.toNat ∧ a.toNat < 0xE000
    | .echo => 0xE000 ≤ a.toNat ∧ a.toNat < 0xFE00
    | .oam => 0xFE00 ≤ a.toNat ∧ a.toNat < 0xFEA0
    | .unusable => 0xFEA0 ≤ a.toNat ∧ a.toNat < 0xFF00
    | .io => 0xFF00 ≤ a.toNat ∧ a.toNat < 0xFF80
    | .hram => 0xFF80 ≤ a.toNat ∧ a.toNat < 0xFFFF
    | .ie => a.toNat = 0xFFFF := by
  have hlt := a.isLt
  by_cases h1 : a.toNat < 0x4000
  · rw [region_rom0 h1]; exact h1
  by_cases h2 : a.toNat < 0x8000
  · rw [region_romX (by omega) h2]; exact ⟨by omega, h2⟩
  by_cases h3 : a.toNat < 0xA000
  · rw [region_vram (by omega) h3]; exact ⟨by omega, h3⟩
  by_cases h4 : a.toNat < 0xC000
  · rw [region_eram (by omega) h4]; exact ⟨by omega, h4⟩
  by_cases h5 : a.toNat < 0xE000
  · rw [region_wram (by omega) h5]; exact ⟨by omega, h5⟩
  by_cases h6 : a.toNat < 0xFE00
  · rw [region_echo (by omega) h6]; exact ⟨by omega, h6⟩
  by_cases h7 : a.toNat < 0xFEA0
  · rw [region_oam (by omega) h7]; exact ⟨by omega, h7⟩
  by_cases h8 : a.toNat < 0xFF00
  · rw [region_unusable (by omega) h8]; exact ⟨by omega, h8⟩
  by_cases h9 : a.toNat < 0xFF80
  · rw [region_io (by omega) h9]; exact ⟨by omega, h9⟩
  by_cases h10 : a.toNat < 0xFFFF
  · rw [region_hram (by omega) h10]; exact ⟨by omega, h10⟩
  · have h : a.toNat = 0xFFFF := by omega
    rw [region_ie (BitVec.eq_of_toNat_eq h)]; exact h

end Sys2Proof.Machine
end

