-- ==== Sys2Proof/Laws/Exec.lean ====
section
/-! SUPPORT. Once per operation, everything it can do: the bus read, the write effect, the end of a load, exec and
step. Proofs about runs cite these instead of unfolding the machine. -/

namespace Sys2Proof.Machine

@[simp] theorem exec_rd (a : Addr) (s : State) :
    exec (.rd a) s = .next ((s.setIo (busRead s.block s.io a).2).setResp (.byte (busRead s.block s.io a).1)) := rfl
@[simp] theorem exec_wr (a : Addr) (v : Byte) (s : State) :
    exec (.wr a v) s =
      .next (((s.setBlock (blockWrite s.block a v)).setIo (delegateWrite s.io a v)).setResp .none) := rfl
@[simp] theorem exec_cload (s : State) :
    exec .cload s = .next (s.takeLoad.finishLoad (loadCart s.nextLoad)) := rfl
@[simp] theorem exec_cunload (s : State) :
    exec .cunload s = .next ((s.setBlock (s.block.setSlot .empty)).setResp .none) := rfl
@[simp] theorem exec_romsz (c : Byte) (s : State) :
    exec (.romsz c) s = .next (s.setResp (.size (decodeRomSize c).1 (decodeRomSize c).2)) := rfl
@[simp] theorem exec_ramsz (c : Byte) (s : State) :
    exec (.ramsz c) s = .next (s.setResp (.size (decodeRamSize c).1 (decodeRamSize c).2)) := rfl
@[simp] theorem exec_tname (c : Byte) (s : State) :
    exec (.tname c) s = .next (s.setResp (.name (cartridgeTypeName c))) := rfl
@[simp] theorem exec_pname (l : Word) (o : Bool) (s : State) :
    exec (.pname l o) s = .next (s.setResp (.name (publisherName l o))) := rfl
@[simp] theorem exec_hcadd8 (a b : Byte) (s : State) :
    exec (.hcadd8 a b) s = .next (s.setResp (.bool (halfCarryAdd8 a b))) := rfl
@[simp] theorem exec_cadd8 (a b : Byte) (s : State) :
    exec (.cadd8 a b) s = .next (s.setResp (.bool (carryAdd8 a b))) := rfl
@[simp] theorem exec_hcsub8 (a b : Byte) (s : State) :
    exec (.hcsub8 a b) s = .next (s.setResp (.bool (halfCarrySub8 a b))) := rfl
@[simp] theorem exec_csub8 (a b : Byte) (s : State) :
    exec (.csub8 a b) s = .next (s.setResp (.bool (carrySub8 a b))) := rfl
@[simp] theorem exec_hcadd16 (a b : Word) (s : State) :
    exec (.hcadd16 a b) s = .next (s.setResp (.bool (halfCarryAdd16 a b))) := rfl
@[simp] theorem exec_cadd16 (a b : Word) (s : State) :
    exec (.cadd16 a b) s = .next (s.setResp (.bool (carryAdd16 a b))) := rfl
@[simp] theorem exec_hcsub16 (a b : Word) (s : State) :
    exec (.hcsub16 a b) s = .next (s.setResp (.bool (halfCarrySub16 a b))) := rfl
@[simp] theorem exec_csub16 (a b : Word) (s : State) :
    exec (.csub16 a b) s = .next (s.setResp (.bool (carrySub16 a b))) := rfl
@[simp] theorem exec_sext8 (v : Byte) (s : State) :
    exec (.sext8 v) s = .next (s.setResp (.word (signExtend8 v))) := rfl
theorem exec_hdec_loaded {s : State} {c : Cart} (h : s.block.slot = .loaded c) :
    exec .hdec s = .next (s.setResp (.header (decodeHeader c.raw))) := by simp [exec, execHdec, h]
theorem exec_hdec_empty {s : State} (h : s.block.slot = .empty) : exec .hdec s = .refused .emptySlot := by
  simp [exec, execHdec, h]
theorem exec_hchk_loaded {s : State} {c : Cart} (h : s.block.slot = .loaded c) :
    exec .hchk s = .next (s.setResp (.bool (verifyChecksum c.rom))) := by simp [exec, execHchk, h]
theorem exec_hchk_empty {s : State} (h : s.block.slot = .empty) : exec .hchk s = .refused .emptySlot := by
  simp [exec, execHchk, h]

/-- Everything a command that completes can do to the state: RD may change the delegate; WR has its write effect;
CLOAD consumes an input and may fill the slot; CUNLOAD empties it; every other command only responds. -/
theorem exec_cases {i : Instr} {s t : State} (h : exec i s = .next t) :
    (∃ a, i = .rd a ∧ t = (s.setIo (busRead s.block s.io a).2).setResp (.byte (busRead s.block s.io a).1)) ∨
    (∃ a v, i = .wr a v ∧
      t = ((s.setBlock (blockWrite s.block a v)).setIo (delegateWrite s.io a v)).setResp .none) ∨
    (i = .cload ∧ t = s.takeLoad.finishLoad (loadCart s.nextLoad)) ∨
    (i = .cunload ∧ t = (s.setBlock (s.block.setSlot .empty)).setResp .none) ∨
    (∃ r, t = s.setResp r ∧ (∀ a, i ≠ .rd a) ∧ (∀ a v, i ≠ .wr a v) ∧ i ≠ .cload ∧ i ≠ .cunload) := by
  cases i with
  | rd a => exact .inl ⟨a, rfl, by simpa using h.symm⟩
  | wr a v => exact .inr (.inl ⟨a, v, rfl, by simpa using h.symm⟩)
  | cload => exact .inr (.inr (.inl ⟨rfl, by simpa using h.symm⟩))
  | cunload => exact .inr (.inr (.inr (.inl ⟨rfl, by simpa using h.symm⟩)))
  | hdec =>
    cases hs : s.block.slot with
    | empty => simp [exec_hdec_empty hs] at h
    | loaded c => exact .inr (.inr (.inr (.inr ⟨_, by simpa [exec_hdec_loaded hs] using h.symm, by simp⟩)))
  | hchk =>
    cases hs : s.block.slot with
    | empty => simp [exec_hchk_empty hs] at h
    | loaded c => exact .inr (.inr (.inr (.inr ⟨_, by simpa [exec_hchk_loaded hs] using h.symm, by simp⟩)))
  | romsz c => exact .inr (.inr (.inr (.inr ⟨_, by simpa using h.symm, by simp⟩)))
  | ramsz c => exact .inr (.inr (.inr (.inr ⟨_, by simpa using h.symm, by simp⟩)))
  | tname c => exact .inr (.inr (.inr (.inr ⟨_, by simpa using h.symm, by simp⟩)))
  | pname l o => exact .inr (.inr (.inr (.inr ⟨_, by simpa using h.symm, by simp⟩)))
  | hcadd8 a b => exact .inr (.inr (.inr (.inr ⟨_, by simpa using h.symm, by simp⟩)))
  | cadd8 a b => exact .inr (.inr (.inr (.inr ⟨_, by simpa using h.symm, by simp⟩)))
  | hcsub8 a b => exact .inr (.inr (.inr (.inr ⟨_, by simpa using h.symm, by simp⟩)))
  | csub8 a b => exact .inr (.inr (.inr (.inr ⟨_, by simpa using h.symm, by simp⟩)))
  | hcadd16 a b => exact .inr (.inr (.inr (.inr ⟨_, by simpa using h.symm, by simp⟩)))
  | cadd16 a b => exact .inr (.inr (.inr (.inr ⟨_, by simpa using h.symm, by simp⟩)))
  | hcsub16 a b => exact .inr (.inr (.inr (.inr ⟨_, by simpa using h.symm, by simp⟩)))
  | csub16 a b => exact .inr (.inr (.inr (.inr ⟨_, by simpa using h.symm, by simp⟩)))
  | sext8 v => exact .inr (.inr (.inr (.inr ⟨_, by simpa using h.symm, by simp⟩)))

/-- A step that completes took the next word of the port, decoded it and performed it. -/
theorem step_cases {s t : State} (h : step s = .next t) :
    ∃ w rest i, s.commands = w :: rest ∧ decode w = .ok i ∧ exec i (s.setCommands rest) = .next t := by
  unfold step at h
  cases hc : s.commands with
  | nil => simp [hc] at h
  | cons w rest =>
    cases hd : decode w with
    | error e => simp [hc, hd] at h
    | ok i => exact ⟨w, rest, i, rfl, hd, by simpa [hc, hd] using h⟩

/-- Everything the end of a load can do: fill the slot with what `loadCart` made, or only respond (R109, R110). -/
theorem finishLoad_cases (s : State) (r : Except LoadStatus (Cart × Bool)) :
    (∃ c unk, r = .ok (c, unk) ∧
      s.finishLoad r = (s.setBlock (s.block.setSlot (.loaded c))).setResp (.load .ok unk)) ∨
    (∃ e, r = .error e ∧ s.finishLoad r = s.setResp (.load e false)) := by
  rcases r with e | ⟨c, unk⟩
  · exact .inr ⟨e, rfl, rfl⟩
  · exact .inl ⟨c, unk, rfl, rfl⟩

/-- A load that succeeds passed every check of R100, and its cartridge is the one made of the arriving bytes. -/
theorem loadCart_ok {inp : LoadInput} {c : Cart} {unk : Bool} (h : loadCart inp = .ok (c, unk)) :
    ∃ length bytes, inp.src = .file length bytes ∧ Config.minRomBytes ≤ length ∧ inp.romAllocOk = true ∧
      length ≤ bytes.size ∧ verifyChecksum bytes = true ∧ c = cartOf bytes ∧ unk = ramCodeUnknown bytes := by
  unfold loadCart at h
  cases hs : inp.src with
  | openFail => simp [hs] at h
  | file length bytes =>
    simp only [hs] at h
    by_cases h1 : length < Config.minRomBytes
    · rw [if_pos h1] at h; cases h
    rw [if_neg h1] at h
    cases h2 : inp.romAllocOk
    · rw [if_pos h2] at h; cases h
    rw [if_neg (by simp [h2])] at h
    by_cases h3 : bytes.size < length
    · rw [if_pos h3] at h; cases h
    rw [if_neg h3] at h
    cases h4 : verifyChecksum bytes
    · rw [if_pos h4] at h; cases h
    rw [if_neg (by simp [h4])] at h
    split at h
    · cases h
    · cases h
      exact ⟨length, bytes, rfl, by omega, rfl, by omega, h4, rfl, rfl⟩

/-- Everything a bus write can do to the block (R174): one byte of one array, the byte of `ie`, a byte of the
cartridge RAM in range, or nothing. -/
theorem blockWrite_cases (b : BlockState) (a : Addr) (v : Byte) :
    (region a = .vram ∧ blockWrite b a v = b.setVram (a.toNat - 0x8000) v) ∨
    (region a = .eram ∧ blockWrite b a v = b.setRam (a.toNat - 0xA000) v) ∨
    (region a = .wram ∧ blockWrite b a v = b.setWram (a.toNat - 0xC000) v) ∨
    (region a = .echo ∧ blockWrite b a v = b.setWram (a.toNat - 0xE000) v) ∨
    (region a = .oam ∧ blockWrite b a v = b.setOam (a.toNat - 0xFE00) v) ∨
    (region a = .hram ∧ blockWrite b a v = b.setHram (a.toNat - 0xFF80) v) ∨
    (region a = .ie ∧ blockWrite b a v = b.setIe v) ∨
    ((region a = .rom0 ∨ region a = .romX ∨ region a = .unusable ∨ region a = .io) ∧ blockWrite b a v = b) := by
  cases h : region a <;> simp [blockWrite, storageIndex, h]

end Sys2Proof.Machine
end

