-- ==== Sys2Proof/Laws/PerInstr.lean ====
section
/-! SUPPORT. Statements about every command, one lemma per constructor. -/

namespace Sys2Proof.Laws.EncodedInRow

/-- The word of a command lies in the row of spec/opcode_table.json that bears its mnemonic: the code is the row's
and every must-be-zero bit is 0 (30_encoding.md R72, R78). -/
def Statement (i : Instr) : Prop :=
  ∃ r ∈ opcodeTable, r.mnemonic = i.mnemonic ∧ encode i &&& r.mask = r.pattern

/-- A row whose mask and pattern are laid out in the fields of R72's columns. -/
theorem of_row {i : Instr} (m : Mnemonic) (p k : Command) (hi : i.mnemonic = m) (hr : ⟨m, p, k⟩ ∈ opcodeTable)
    (hk : k = (0xFF : Byte) ++ m.zeroA ++ m.zeroB) (hp : p = m.op ++ (0 : Word) ++ (0 : Word))
    (ha : i.wordA &&& m.zeroA = 0) (hb : i.wordB &&& m.zeroB = 0) : Statement i := by
  refine ⟨_, hr, hi.symm, ?_⟩
  show encode i &&& k = p
  rw [hk, hp, encode, word_and, ha, hb, hi, show (0xFF : Byte) = BitVec.allOnes 8 from rfl, BitVec.and_allOnes]

theorem rd (addr : Addr) : Statement (.rd addr) :=
  of_row .rd 0x0000000000 0xFF0000FFFF rfl (by decide) (by decide) (by decide) (by simp [Instr.wordA, Mnemonic.zeroA])
    (by simp [Instr.wordB, Mnemonic.zeroB])
theorem wr (addr : Addr) (data : Byte) : Statement (.wr addr data) :=
  of_row .wr 0x0100000000 0xFF0000FF00 rfl (by decide) (by decide) (by decide) (by simp [Instr.wordA, Mnemonic.zeroA])
    (by simp [Instr.wordB, Mnemonic.zeroB])
theorem cload : Statement .cload :=
  of_row .cload 0x1000000000 0xFFFFFFFFFF rfl (by decide) (by decide) (by decide) (by simp [Instr.wordA, Mnemonic.zeroA])
    (by simp [Instr.wordB, Mnemonic.zeroB])
theorem cunload : Statement .cunload :=
  of_row .cunload 0x1100000000 0xFFFFFFFFFF rfl (by decide) (by decide) (by decide) (by simp [Instr.wordA, Mnemonic.zeroA])
    (by simp [Instr.wordB, Mnemonic.zeroB])
theorem hdec : Statement .hdec :=
  of_row .hdec 0x2000000000 0xFFFFFFFFFF rfl (by decide) (by decide) (by decide) (by simp [Instr.wordA, Mnemonic.zeroA])
    (by simp [Instr.wordB, Mnemonic.zeroB])
theorem hchk : Statement .hchk :=
  of_row .hchk 0x2100000000 0xFFFFFFFFFF rfl (by decide) (by decide) (by decide) (by simp [Instr.wordA, Mnemonic.zeroA])
    (by simp [Instr.wordB, Mnemonic.zeroB])
theorem romsz (code : Byte) : Statement (.romsz code) :=
  of_row .romsz 0x2200000000 0xFFFF00FFFF rfl (by decide) (by decide) (by decide) (by simp [Instr.wordA, Mnemonic.zeroA])
    (by simp [Instr.wordB, Mnemonic.zeroB])
theorem ramsz (code : Byte) : Statement (.ramsz code) :=
  of_row .ramsz 0x2300000000 0xFFFF00FFFF rfl (by decide) (by decide) (by decide) (by simp [Instr.wordA, Mnemonic.zeroA])
    (by simp [Instr.wordB, Mnemonic.zeroB])
theorem tname (code : Byte) : Statement (.tname code) :=
  of_row .tname 0x2400000000 0xFFFF00FFFF rfl (by decide) (by decide) (by decide) (by simp [Instr.wordA, Mnemonic.zeroA])
    (by simp [Instr.wordB, Mnemonic.zeroB])
theorem pname (license : Word) (isOld : Bool) : Statement (.pname license isOld) :=
  of_row .pname 0x2500000000 0xFF0000FFFE rfl (by decide) (by decide) (by decide) (by simp [Instr.wordA, Mnemonic.zeroA])
    (by cases isOld <;> simp [Instr.wordB, Mnemonic.zeroB])
theorem hcadd8 (a b : Byte) : Statement (.hcadd8 a b) :=
  of_row .hcadd8 0x3000000000 0xFFFF00FF00 rfl (by decide) (by decide) (by decide) (by simp [Instr.wordA, Mnemonic.zeroA])
    (by simp [Instr.wordB, Mnemonic.zeroB])
theorem cadd8 (a b : Byte) : Statement (.cadd8 a b) :=
  of_row .cadd8 0x3100000000 0xFFFF00FF00 rfl (by decide) (by decide) (by decide) (by simp [Instr.wordA, Mnemonic.zeroA])
    (by simp [Instr.wordB, Mnemonic.zeroB])
theorem hcsub8 (a b : Byte) : Statement (.hcsub8 a b) :=
  of_row .hcsub8 0x3200000000 0xFFFF00FF00 rfl (by decide) (by decide) (by decide) (by simp [Instr.wordA, Mnemonic.zeroA])
    (by simp [Instr.wordB, Mnemonic.zeroB])
theorem csub8 (a b : Byte) : Statement (.csub8 a b) :=
  of_row .csub8 0x3300000000 0xFFFF00FF00 rfl (by decide) (by decide) (by decide) (by simp [Instr.wordA, Mnemonic.zeroA])
    (by simp [Instr.wordB, Mnemonic.zeroB])
theorem hcadd16 (a b : Word) : Statement (.hcadd16 a b) :=
  of_row .hcadd16 0x3400000000 0xFF00000000 rfl (by decide) (by decide) (by decide) (by simp [Instr.wordA, Mnemonic.zeroA])
    (by simp [Instr.wordB, Mnemonic.zeroB])
theorem cadd16 (a b : Word) : Statement (.cadd16 a b) :=
  of_row .cadd16 0x3500000000 0xFF00000000 rfl (by decide) (by decide) (by decide) (by simp [Instr.wordA, Mnemonic.zeroA])
    (by simp [Instr.wordB, Mnemonic.zeroB])
theorem hcsub16 (a b : Word) : Statement (.hcsub16 a b) :=
  of_row .hcsub16 0x3600000000 0xFF00000000 rfl (by decide) (by decide) (by decide) (by simp [Instr.wordA, Mnemonic.zeroA])
    (by simp [Instr.wordB, Mnemonic.zeroB])
theorem csub16 (a b : Word) : Statement (.csub16 a b) :=
  of_row .csub16 0x3700000000 0xFF00000000 rfl (by decide) (by decide) (by decide) (by simp [Instr.wordA, Mnemonic.zeroA])
    (by simp [Instr.wordB, Mnemonic.zeroB])
theorem sext8 (v : Byte) : Statement (.sext8 v) :=
  of_row .sext8 0x3800000000 0xFFFF00FFFF rfl (by decide) (by decide) (by decide) (by simp [Instr.wordA, Mnemonic.zeroA])
    (by simp [Instr.wordB, Mnemonic.zeroB])

end Sys2Proof.Laws.EncodedInRow
end

