-- ==== Sys2Proof/Tests/Slice0.lean ====
section
/-! SUPPORT. The model's own tests, and for each statement with hypotheses a witness that meets them. Expected values
come from the vectors of spec/95_test_vectors.md, cited by their ids, or from the rule a comment names. -/

namespace Sys2Proof.Machine.Tests

/-! ## The small states -/

/-- The cells of the title "BAREDMG TEST" and the new licence pair (image I1). -/
def titleCells : List Host.Cell :=
  [(0x0134, 0x42), (0x0135, 0x41), (0x0136, 0x52), (0x0137, 0x45), (0x0138, 0x44), (0x0139, 0x4D), (0x013A, 0x47),
   (0x013B, 0x20), (0x013C, 0x54), (0x013D, 0x45), (0x013E, 0x53), (0x013F, 0x54), (0x0144, 0x30), (0x0145, 0x31)]

/-- Images I1 and I3–I6: I1 with a RAM-size code and a header checksum (cells after the title, none equal to 0x00). -/
def imageLike (ramCode checksum : List Host.Cell) : Memory :=
  ⟨0x8000, titleCells ++ ramCode ++ [(0x014A, 0x01), (0x014B, 0x33)] ++ checksum ++ [(0x4000, 0xCD), (0x7FFF, 0xAB)]⟩

/-- Image I0. -/
def imageI0 : Memory := ⟨0x0150, [(0x014D, 0xE7)]⟩
/-- Image I1. -/
def imageI1 : Memory := imageLike [] []
/-- Image I2. -/
def imageI2 : Memory :=
  ⟨0x6000, [(0x0134, 0x41), (0x0135, 0x42), (0x0136, 0x43), (0x0137, 0x44), (0x0138, 0x45), (0x0139, 0x46),
    (0x013A, 0x47), (0x013B, 0x48), (0x013C, 0x49), (0x013D, 0x4A), (0x013E, 0x4B), (0x013F, 0x4C), (0x0140, 0x4D),
    (0x0141, 0x4E), (0x0142, 0x4F), (0x0143, 0x80), (0x0146, 0x03), (0x0147, 0x03), (0x0148, 0x01), (0x0149, 0x03),
    (0x014B, 0x01), (0x014C, 0x02), (0x014D, 0x22), (0x5FFF, 0x99)]⟩
/-- Image I3. -/
def imageI3 : Memory := imageLike [(0x0149, 0x01)] [(0x014D, 0xFF)]
/-- Image I4: I1 with a wrong checksum. -/
def imageI4 : Memory := imageLike [] [(0x014D, 0x01)]
/-- Image I5. -/
def imageI5 : Memory := imageLike [(0x0149, 0x07)] [(0x014D, 0xF9)]
/-- Image I6. -/
def imageI6 : Memory := imageLike [(0x0149, 0x02)] [(0x014D, 0xFE)]

/-- The creation state with the reference delegate (the start state of the vectors). -/
def created : State := State.reset.setIo .placeholder

/-- The creation state with an image loaded. -/
def loaded (rom : Memory) : State := created.setBlock (BlockState.reset.setSlot (.loaded (cartOf rom)))

/-- The creation state with one CLOAD input presented. -/
def presented (src : ImageSource) (romAllocOk ramAllocOk : Bool) : State :=
  { created with loads := [⟨src, romAllocOk, ramAllocOk⟩] }

/-- The response of a command; none where it is refused. -/
def respOf (i : Instr) (s : State) : Option Resp :=
  match exec i s with
  | .next t => t.resp
  | .fault _ => none
  | .refused _ => none

/-- The state after a command; the state itself where it is refused. -/
def after (i : Instr) (s : State) : State :=
  match exec i s with
  | .next t => t
  | .fault _ => s
  | .refused _ => s

/-- Whether a next state has a property. -/
def nextHas (o : Host.Outcome State Fault Refusal) (p : State → Bool) : Bool :=
  match o with
  | .next t => p t
  | .fault _ => false
  | .refused _ => false

/-- Whether a step is refused with a refusal. -/
def refusedAs (o : Host.Outcome State Fault Refusal) (r : Refusal) : Bool :=
  match o with
  | .next _ => false
  | .fault _ => false
  | .refused r' => decide (r' = r)

/-- Whether values lie in a range, both ends included. -/
def within {n : Nat} (lo hi : Nat) (vs : List (BitVec n)) : Bool :=
  vs.all fun v => decide (lo ≤ v.toNat) && decide (v.toNat ≤ hi)

/-! ## Well-formedness -/

theorem test_wf_address_fits : (Line.mk .rd [0xFFFF]).wf = true := by decide
theorem test_wf_address_too_wide : (Line.mk .rd [0x10000]).wf = false := by decide
theorem test_wf_byte_too_wide : (Line.mk .wr [0xC000, 0x100]).wf = false := by decide
theorem test_wf_is_old_not_a_bit : (Line.mk .pname [0x0001, 2]).wf = false := by decide
theorem test_wf_operand_missing : (Line.mk .wr [0xC000]).wf = false := by decide
theorem test_wf_operand_too_many : (Line.mk .cload [0]).wf = false := by decide
theorem test_wf_image_longer_than_file : (ImageSource.file 1 ⟨2, []⟩).wf = false := by decide
theorem test_wf_array_out_of_order : (Memory.mk 4 [(2, 1), (1, 1)]).wf = false := by decide
theorem test_wf_array_lists_unlisted : (Memory.mk 4 [(1, 0)]).wf = false := by decide
theorem test_wf_array_past_its_size : (Memory.mk 4 [(4, 1)]).wf = false := by decide

/-! ## Decoding: words written out from R70 and R72, at least one per constructor -/

/-- E-1, E-2, E-5, and the words of programs P1 and P2. -/
theorem test_decode_bus_words :
    decode 0x0000000000 = .ok (.rd 0x0000) ∧ decode 0x00FFFF0000 = .ok (.rd 0xFFFF) ∧
    decode 0x01C00000FF = .ok (.wr 0xC000 0xFF) ∧ decode 0x01FFFF005A = .ok (.wr 0xFFFF 0x5A) ∧
    decode 0x1000000000 = .ok .cload ∧ decode 0x1100000000 = .ok .cunload := by decide

/-- E-9, E-11, L1-4, H-9, N-1, N-4. -/
theorem test_decode_header_words :
    decode 0x2000000000 = .ok .hdec ∧ decode 0x2100000000 = .ok .hchk ∧ decode 0x2200080000 = .ok (.romsz 0x08) ∧
    decode 0x2300FF0000 = .ok (.ramsz 0xFF) ∧ decode 0x2400FF0000 = .ok (.tname 0xFF) ∧
    decode 0x2500FF0001 = .ok (.pname 0x00FF true) ∧ decode 0x2530310000 = .ok (.pname 0x3031 false) := by decide

/-- E-14, E-15 and the words of U-1 to U-34. -/
theorem test_decode_utility_words :
    decode 0x30003A0006 = .ok (.hcadd8 0x3A 0x06) ∧ decode 0x3100FF0001 = .ok (.cadd8 0xFF 0x01) ∧
    decode 0x32000F00F0 = .ok (.hcsub8 0x0F 0xF0) ∧ decode 0x3300100020 = .ok (.csub8 0x10 0x20) ∧
    decode 0x34FFFFFFFF = .ok (.hcadd16 0xFFFF 0xFFFF) ∧ decode 0x35C0004000 = .ok (.cadd16 0xC000 0x4000) ∧
    decode 0x3620000FFF = .ok (.hcsub16 0x2000 0x0FFF) ∧ decode 0x3712341235 = .ok (.csub16 0x1234 0x1235) ∧
    decode 0x3800800000 = .ok (.sext8 0x80) := by decide

/-- E-3, E-4, E-6, E-7, E-8, E-10, E-12, E-13, E-16. -/
theorem test_decode_reserved_bits :
    decode 0x0000000001 = .error (.reservedBits .rd) ∧ decode 0x00C0008000 = .error (.reservedBits .rd) ∧
    decode 0x01C0000100 = .error (.reservedBits .wr) ∧ decode 0x1000000001 = .error (.reservedBits .cload) ∧
    decode 0x1100010000 = .error (.reservedBits .cunload) ∧ decode 0x2201050000 = .error (.reservedBits .romsz) ∧
    decode 0x2500FF0002 = .error (.reservedBits .pname) ∧ decode 0x30000F0100 = .error (.reservedBits .hcadd8) ∧
    decode 0x3800800001 = .error (.reservedBits .sext8) := by decide

/-- E-17 to E-22. -/
theorem test_decode_unassigned :
    decode 0x0200000000 = .error (.unassignedOpcode 0x02) ∧ decode 0x0F00000000 = .error (.unassignedOpcode 0x0F) ∧
    decode 0x1200000000 = .error (.unassignedOpcode 0x12) ∧ decode 0x2600000000 = .error (.unassignedOpcode 0x26) ∧
    decode 0x3900000000 = .error (.unassignedOpcode 0x39) ∧ decode 0xFFFFFFFFFF = .error (.unassignedOpcode 0xFF) := by
  decide

/-- The host's numbering: the word itself, its bits from `nbits` up cleared. -/
theorem test_decodeTableWord :
    decodeTableWord 40 0x01C123005A = some (.wr 0xC123 0x5A) ∧ decodeTableWord 40 0x3900000000 = none ∧
    decodeTableWord 16 0x00C1230000 = some (.rd 0x0000) := by decide

/-- R78's example line, a number in decimal, an operand too wide, and an empty line. -/
theorem test_assembleLine :
    assembleLine "WR 0xC000, 0x5A ; store".toList = .ok (some (.wr 0xC000 0x5A)) ∧
    assembleLine "PNAME 12337, 0".toList = .ok (some (.pname 0x3031 false)) ∧
    assembleLine "CLOAD".toList = .ok (some .cload) ∧ assembleLine " ; nothing".toList = .ok none ∧
    assembleLine "RD 0x10000".toList = .error .badOperands ∧ assembleLine "RD 0xG".toList = .error .badNumber ∧
    assembleLine "NOP".toList = .error .unknownMnemonic := by decide

/-! ## RD and WR -/

/-- B-1 to B-21, "RD, I1 loaded", and B-29's out-of-bounds read. -/
theorem test_rd_region_ends :
    [0x0000, 0x3FFF, 0x4000, 0x7FFF, 0x8000, 0x9FFF, 0xA000, 0xBFFF, 0xC000, 0xDFFF, 0xE000, 0xFDFF, 0xFE00, 0xFE9F,
      0xFEA0, 0xFEFF, 0xFF00, 0xFF7F, 0xFF80, 0xFFFE, 0xFFFF].map (fun a => respOf (.rd a) (loaded imageI1)) =
    [0x00, 0x00, 0xCD, 0xAB, 0x00, 0x00, 0xFF, 0xFF, 0x00, 0x00, 0x00, 0x00, 0x00, 0x00, 0x00, 0x00, 0xCF, 0xFF,
      0x00, 0x00, 0x00].map (fun v => some (.byte v)) ∧
    respOf (.rd 0x0150) (loaded imageI0) = some (.byte 0xFF) ∧ respOf (.rd 0x014F) (loaded imageI0) = some (.byte 0x00) := by
  decide

/-- L1-9: the placeholder's registers; and an external delegate's history after a read. -/
theorem test_rd_io :
    respOf (.rd 0xFF40) created = some (.byte 0x91) ∧ respOf (.rd 0xFF47) created = some (.byte 0xFC) ∧
    (after (.rd 0xFF01) State.reset).io = .external [.read 0xFF01] := by decide

/-- B-1 to B-21, "WR 0x5A, then RD". -/
theorem test_wr_region_ends :
    [0x0000, 0x3FFF, 0x4000, 0x7FFF, 0x8000, 0x9FFF, 0xA000, 0xBFFF, 0xC000, 0xDFFF, 0xE000, 0xFDFF, 0xFE00, 0xFE9F,
      0xFEA0, 0xFEFF, 0xFF00, 0xFF7F, 0xFF80, 0xFFFE, 0xFFFF].map
      (fun a => respOf (.rd a) (after (.wr a 0x5A) (loaded imageI1))) =
    [0x00, 0x00, 0xCD, 0xAB, 0x5A, 0x5A, 0xFF, 0xFF, 0x5A, 0x5A, 0x5A, 0x5A, 0x5A, 0x5A, 0x00, 0x00, 0xCF, 0xFF,
      0x5A, 0x5A, 0x5A].map (fun v => some (.byte v)) := by decide

/-- L1-1, B-22, B-23, B-26, B-27: the echo, its end, and the end of a small cartridge RAM. -/
theorem test_wr_aliases :
    respOf (.rd 0xE123) (after (.wr 0xC123 0x5A) created) = some (.byte 0x5A) ∧
    respOf (.rd 0xDDFF) (after (.wr 0xFDFF 0x77) created) = some (.byte 0x77) ∧
    respOf (.rd 0xFE00) (after (.wr 0xDE00 0x11) created) = some (.byte 0x00) ∧
    respOf (.rd 0xDE00) (after (.wr 0xFE00 0x22) created) = some (.byte 0x00) ∧
    respOf (.rd 0xA7FF) (after (.wr 0xA7FF 0x44) (loaded imageI3)) = some (.byte 0x44) ∧
    respOf (.rd 0xA800) (after (.wr 0xA800 0x55) (loaded imageI3)) = some (.byte 0xFF) := by decide

/-! ## CLOAD and CUNLOAD -/

/-- L-1 to L-12 and L-15: the responses. -/
theorem test_cload_responses :
    [presented .openFail true true, presented (.file 0x014F ⟨0x014F, []⟩) false true,
      presented (.file 0x8000 imageI1) false true, presented (.file 0x8000 ⟨0x4000, titleCells⟩) true true,
      presented (.file 0x8000 ⟨0x4000, titleCells⟩) false true, presented (.file 0x8000 imageI4) true false,
      presented (.file 0x0150 imageI0) true false, presented (.file 0x8000 imageI6) true false,
      presented (.file 0x8000 imageI6) true true, presented (.file 0x8000 imageI5) true false,
      presented (.file 0x6000 imageI2) true true].map (respOf .cload) =
    [some (.load .openFailure false), some (.load .tooSmall false), some (.load .allocationFailure false),
      some (.load .readFailure false), some (.load .allocationFailure false), some (.load .checksumMismatch false),
      some (.load .ok false), some (.load .allocationFailure false), some (.load .ok false), some (.load .ok true),
      some (.load .ok false)] := by decide

/-- R241's numeric codes. -/
theorem test_load_status_codes :
    [LoadStatus.ok, .openFailure, .tooSmall, .allocationFailure, .readFailure, .checksumMismatch].map loadStatusCode =
    [0, 1, 2, 3, 4, 5] := by decide

/-- L-13, L-14, L-15: a failure keeps the slot, a success replaces it with a fresh RAM, the sizes. -/
theorem test_cload_slots :
    (after .cload { loaded imageI5 with loads := [⟨.file 0x8000 imageI4, true, true⟩] }).block =
      (loaded imageI5).block ∧
    (after .cload { after (.wr 0xA000 0x44) (loaded imageI3) with
      loads := [⟨.file 0x8000 imageI3, true, true⟩] }).block = (loaded imageI3).block ∧
    (after .cload (presented (.file 0x6000 imageI2) true true)).block.romSize = 0x6000 ∧
    (after .cload (presented (.file 0x6000 imageI2) true true)).block.ramSize = 32768 := by decide

/-- L-17, L-18. -/
theorem test_cunload :
    (after .cunload (loaded imageI2)).block = BlockState.reset ∧ (after .cunload created).block = BlockState.reset ∧
    respOf .cunload created = some .none := by decide

/-! ## The header commands -/

/-- H-1 and H-2, and H-8's refusal. -/
theorem test_hdec :
    respOf .hdec (loaded imageI1) = some (.header
      ⟨[0x42, 0x41, 0x52, 0x45, 0x44, 0x4D, 0x47, 0x20, 0x54, 0x45, 0x53, 0x54, 0, 0, 0, 0, 0], 0x00, 0x00, 0x00,
        0x3031, 0x00, false, false⟩) ∧
    respOf .hdec (loaded imageI2) = some (.header
      ⟨[0x41, 0x42, 0x43, 0x44, 0x45, 0x46, 0x47, 0x48, 0x49, 0x4A, 0x4B, 0x4C, 0x4D, 0x4E, 0x4F, 0, 0], 0x03, 0x01,
        0x03, 0x0001, 0x02, true, true⟩) ∧
    refusedAs (exec .hdec created) .emptySlot = true := by decide

/-- H-11, H-9, C-1 to C-4: all zeros, all ones, the first byte, the last byte. -/
theorem test_hchk :
    respOf .hchk (loaded imageI1) = some (.bool true) ∧ refusedAs (exec .hchk created) .emptySlot = true ∧
    headerChecksum (Memory.zeros 0x0150) = 0xE7 ∧
    headerChecksum ⟨0x0150, (List.range 25).map fun k => (0x0134 + k, 0xFF)⟩ = 0x00 ∧
    headerChecksum ⟨0x0150, [(0x0134, 0x01)]⟩ = 0xE6 ∧ headerChecksum ⟨0x0150, [(0x014C, 0xFF)]⟩ = 0xE8 := by decide

/-- H-3 to H-6: the CGB flag and the visible title. -/
theorem test_title_flags :
    let title (v : Byte) : List Byte := List.replicate 52 0 ++ List.replicate 15 0x41 ++ [v] ++ List.replicate 12 0
    visibleTitle (decodeHeader (title 0xC0)) = List.replicate 15 0x41 ∧
    visibleTitle (decodeHeader (title 0x40)) = List.replicate 15 0x41 ++ [0x40] ∧
    (decodeHeader (title 0x81)).cgbSupported = false ∧ (decodeHeader (title 0xC1)).cgbSupported = false ∧
    (decodeHeader (title 0x00)).cgbSupported = false := by decide

/-- L1-8 and S-1 to S-4. -/
theorem test_romsz :
    [0x00, 0x05, 0x08, 0x52, 0x53, 0x54, 0x09, 0x51, 0x55, 0xFF].map (fun c => respOf (.romsz c) created) =
    [some (.size 32768 false), some (.size 1048576 false), some (.size 8388608 false), some (.size 1179648 false),
      some (.size 1310720 false), some (.size 1572864 false), some (.size 0 true), some (.size 0 true),
      some (.size 0 true), some (.size 0 true)] := by decide

/-- L1-8 and S-5 to S-7. -/
theorem test_ramsz :
    [0x00, 0x01, 0x02, 0x03, 0x04, 0x05, 0x06, 0x52, 0xFF].map (fun c => respOf (.ramsz c) created) =
    [some (.size 0 false), some (.size 2048 false), some (.size 8192 false), some (.size 32768 false),
      some (.size 131072 false), some (.size 65536 false), some (.size 0 true), some (.size 0 true),
      some (.size 0 true)] := by decide

/-- N-1, N-2: the table's name or "UNKNOWN"; the table is open, so the name itself has no test. -/
theorem test_tname : respOf (.tname 0x00) created =
    some (.name ((Config.typeNameTable 0x00).getD [0x55, 0x4E, 0x4B, 0x4E, 0x4F, 0x57, 0x4E])) := rfl

/-- N-3 to N-6. -/
theorem test_pname :
    respOf (.pname 0x0001 true) created = some (.name [0x4E, 0x69, 0x6E, 0x74, 0x65, 0x6E, 0x64, 0x6F]) ∧
    respOf (.pname 0x3031 false) created = some (.name [0x4E, 0x69, 0x6E, 0x74, 0x65, 0x6E, 0x64, 0x6F]) ∧
    respOf (.pname 0x3031 true) created = some (.name [0x55, 0x6E, 0x6B, 0x6E, 0x6F, 0x77, 0x6E]) ∧
    respOf (.pname 0x0101 true) created = some (.name [0x55, 0x6E, 0x6B, 0x6E, 0x6F, 0x77, 0x6E]) := by decide

/-! ## The utility predicates -/

/-- U-1 to U-5. -/
theorem test_hcadd8 :
    [(0x3A, 0x06), (0x0F, 0x01), (0x0E, 0x01), (0xF0, 0xF0), (0x08, 0x08)].map
      (fun p => respOf (.hcadd8 p.1 p.2) created) =
    [true, true, false, false, true].map (fun b => some (.bool b)) := by decide
/-- U-6 to U-10. -/
theorem test_cadd8 :
    [(0xF0, 0x10), (0xFF, 0x00), (0xFF, 0x01), (0xFF, 0xFF), (0x00, 0x00)].map
      (fun p => respOf (.cadd8 p.1 p.2) created) =
    [true, false, true, true, false].map (fun b => some (.bool b)) := by decide
/-- U-11 to U-14. -/
theorem test_hcsub8 :
    [(0x20, 0x01), (0x21, 0x01), (0x0F, 0xF0), (0x00, 0x0F)].map (fun p => respOf (.hcsub8 p.1 p.2) created) =
    [true, false, false, true].map (fun b => some (.bool b)) := by decide
/-- U-15 to U-18. -/
theorem test_csub8 :
    [(0x10, 0x20), (0x20, 0x20), (0x00, 0x01), (0xFF, 0x00)].map (fun p => respOf (.csub8 p.1 p.2) created) =
    [true, false, true, false].map (fun b => some (.bool b)) := by decide
/-- U-19 to U-23. -/
theorem test_hcadd16 :
    [(0x08FF, 0x0701), (0x0FFF, 0x0001), (0x0FFE, 0x0001), (0xF000, 0xF000), (0x00FF, 0x0001)].map
      (fun p => respOf (.hcadd16 p.1 p.2) created) =
    [true, true, false, false, false].map (fun b => some (.bool b)) := by decide
/-- U-24 to U-27. -/
theorem test_cadd16 :
    [(0xC000, 0x4000), (0xFFFF, 0x0000), (0xFFFF, 0x0001), (0x00FF, 0x0001)].map
      (fun p => respOf (.cadd16 p.1 p.2) created) =
    [true, false, true, false].map (fun b => some (.bool b)) := by decide
/-- U-28 to U-30. -/
theorem test_hcsub16 :
    [(0x2000, 0x0FFF), (0x1000, 0x0001), (0x1001, 0x0001)].map (fun p => respOf (.hcsub16 p.1 p.2) created) =
    [true, true, false].map (fun b => some (.bool b)) := by decide
/-- U-31 to U-33. -/
theorem test_csub16 :
    [(0x1234, 0x1235), (0xFFFF, 0xFFFF), (0x7FFF, 0x8000)].map (fun p => respOf (.csub16 p.1 p.2) created) =
    [true, false, true].map (fun b => some (.bool b)) := by decide
/-- U-34 to U-38. -/
theorem test_sext8 :
    [0xFE, 0x80, 0x7F, 0x00, 0xFF].map (fun v => respOf (.sext8 v) created) =
    [0xFFFE, 0xFF80, 0x007F, 0x0000, 0xFFFF].map (fun w => some (.word w)) := by decide

/-! ## The step -/

/-- The word at the head of the port is decoded and performed, and the port holds the rest. -/
theorem test_step_takes_the_head :
    nextHas (step (created.setCommands [0x3800800000, 0x3900000000]))
      (fun t => t == { created with commands := [0x3900000000], resp := some (.word 0xFF80) }) = true ∧
    refusedAs (step (created.setCommands [0x3900000000])) (.unassignedOpcode 0x39) = true ∧
    refusedAs (step State.reset) .noCommand = true := by decide

/-- A word placed by `withFetchWord` is the one the next step performs, even with words waiting. -/
theorem test_withFetchWord :
    nextHas (step ((created.setCommands [0x3900000000]).withFetchWord 40 0x3800800000))
      (fun t => t == { created with commands := [0x3900000000], resp := some (.word 0xFF80) }) = true := by decide

/-! ## Witnesses: for each statement with hypotheses, data that meet them, each clause at the ends of its range -/

/-- A state whose block is that of `loaded rom` has the invariant, for an image that passes the checks of R100. -/
theorem inv_of_image (s : State) (rom : Memory) (hb : s.block = (loaded rom).block) (hio : s.io = .placeholder)
    (hl : ∀ inp ∈ s.loads, inp.src.wf = true) (hw : rom.wf = true) (hs : Config.minRomBytes ≤ rom.size)
    (hc : verifyChecksum rom = true) : s.Inv where
  block := by
    rw [hb]
    exact { vramWf := rfl, vramSize := rfl, wramWf := rfl, wramSize := rfl, oamWf := rfl, oamSize := rfl,
            hramWf := rfl, hramSize := rfl,
            cart := fun c h => by
              cases h
              exact { romWf := hw, ramWf := rfl, hdr := rfl, romSize := hs, raw := rfl, checksum := hc, ramSize := rfl } }
  io := by rw [hio]; trivial
  loads := hl

theorem inv_loaded_I0 : (loaded imageI0).Inv :=
  inv_of_image _ imageI0 rfl rfl (by decide) (by decide) (by decide) (by decide)
theorem inv_loaded_I2 : (loaded imageI2).Inv :=
  inv_of_image _ imageI2 rfl rfl (by decide) (by decide) (by decide) (by decide)
theorem inv_loaded_I3 : (loaded imageI3).Inv :=
  inv_of_image _ imageI3 rfl rfl (by decide) (by decide) (by decide) (by decide)

theorem witness_DecodedWordIsTheCommandsWord : decode 0x2500FF0001 = .ok (.pname 0x00FF true) := by decide

theorem witness_DecoderAgreesWithOpcodeTable :
    ∃ r ∈ opcodeTable, (0x2500FF0001 : Command) &&& r.mask = r.pattern ∧ decode 0x2500FF0001 = .ok (.pname 0x00FF true) :=
  ⟨⟨.pname, 0x2500000000, 0xFF0000FFFE⟩, by decide, by decide, by decide⟩

/-- The lowest and the highest must-be-zero bit of RD, and of CLOAD. -/
theorem witness_ReservedBitSetIsRefused :
    ∀ p ∈ [(0x0000000001, Mnemonic.rd), (0x00C0008000, .rd), (0x1000000001, .cload), (0x1080000000, .cload)],
      (created.setCommands [p.1]).commands = p.1 :: [] ∧
      ∃ r ∈ opcodeTable, r.mnemonic = p.2 ∧ p.1 >>> 32 = r.pattern >>> 32 ∧ p.1 &&& r.mask ≠ r.pattern := by decide

/-- Both ends of each unassigned range, and the codes beside them. -/
theorem witness_UnassignedCodeIsRefused :
    (created.setCommands [0x0200000000]).commands = 0x0200000000 :: [] ∧
    [0x0200000000, 0x0F00000000, 0x1200000000, 0x1F00000000, 0x2600000000, 0x2F00000000, 0x3900000000,
      (0xFF00000000 : Command)].map (fun w => w.toNat / 2 ^ 32) = [0x02, 0x0F, 0x12, 0x1F, 0x26, 0x2F, 0x39, 0xFF] ∧
    [0x0000000000, 0x0100000000, 0x1000000000, 0x1100000000, 0x2000000000, 0x2500000000, 0x3000000000,
      (0x3800000000 : Command)].map (fun w => w.toNat / 2 ^ 32) = [0x00, 0x01, 0x10, 0x11, 0x20, 0x25, 0x30, 0x38] := by
  decide

theorem witness_LineAssemblesExactlyWhenOperandsFit :
    (Line.mk .pname [0xFFFF, 1]).wf = true ∧ (Line.mk .pname [0x10000, 1]).wf = false := by decide

theorem witness_StepPerformsTheDecodedCommand :
    (created.setCommands [0x01C00000FF, 0x0000000000]).commands = 0x01C00000FF :: [0x0000000000] ∧
    decode 0x01C00000FF = .ok (.wr 0xC000 0xFF) := by decide

/-- Each clause: an empty slot, a loaded one, no command, each kind of refusal. -/
theorem witness_RefusalsAreOnlyThoseListed :
    created.block.slot = .empty ∧ (loaded imageI1).block.slot ≠ .empty ∧ refusedAs (step created) .noCommand = true ∧
    refusedAs (step (created.setCommands [0x3900000000])) (.unassignedOpcode 0x39) = true ∧
    refusedAs (step (created.setCommands [0x0000000001])) (.reservedBits .rd) = true ∧
    refusedAs (step (created.setCommands [0x2000000000])) .emptySlot = true ∧
    refusedAs (step (created.setCommands [0x2100000000])) .emptySlot = true := by decide

/-- R172: both ends of every region; so every clause on a region kind has an address. -/
theorem witness_RegionIsSelectedByBitPatterns :
    [0x0000, 0x3FFF, 0x4000, 0x7FFF, 0x8000, 0x9FFF, 0xA000, 0xBFFF, 0xC000, 0xDFFF, 0xE000, 0xFDFF, 0xFE00, 0xFE9F,
      0xFEA0, 0xFEFF, 0xFF00, 0xFF7F, 0xFF80, 0xFFFE, 0xFFFF].map region =
    [.rom0, .rom0, .romX, .romX, .vram, .vram, .eram, .eram, .wram, .wram, .echo, .echo, .oam, .oam, .unusable,
      .unusable, .io, .io, .hram, .hram, .ie] := by decide

/-- Two addresses of one cell at both ends of the echo, and two of different cells. -/
theorem witness_OnlyTheEchoAliases :
    (0xC000 : Addr) ≠ 0xE000 ∧ cell created.block 0xC000 = cell created.block 0xE000 ∧
    (0xDDFF : Addr) ≠ 0xFDFF ∧ cell created.block 0xDDFF = cell created.block 0xFDFF ∧
    (0xDE00 : Addr) ≠ 0xFE00 ∧ cell created.block 0xDE00 ≠ cell created.block 0xFE00 := by decide

/-- Inside and past the ROM at the ends of the area, and the empty slot. -/
theorem witness_RomAreaRead :
    (0x0000 : Addr).toNat ≤ 0x7FFF ∧ (0x7FFF : Addr).toNat ≤ 0x7FFF ∧
    (loaded imageI2).block.slot = .loaded (cartOf imageI2) ∧ (0x5FFF : Addr).toNat < (cartOf imageI2).rom.size ∧
    (cartOf imageI2).rom.size ≤ (0x6000 : Addr).toNat ∧ created.block.slot = .empty := by decide

theorem witness_ArrayRegions :
    within 0x8000 0x9FFF [0x8000, (0x9FFF : Addr)] = true ∧ within 0xC000 0xDFFF [0xC000, (0xDFFF : Addr)] = true ∧
    within 0xE000 0xFDFF [0xE000, (0xFDFF : Addr)] = true ∧ within 0xFE00 0xFE9F [0xFE00, (0xFE9F : Addr)] = true ∧
    within 0xFF80 0xFFFE [0xFF80, (0xFFFE : Addr)] = true ∧ (0xFFFF : Addr).toNat = 0xFFFF := by decide

/-- For the reads and the writes of cartridge RAM: inside and past a RAM of 0x800 bytes, and the empty slot. -/
theorem witness_CartridgeRam :
    within 0xA000 0xBFFF [0xA000, 0xA7FF, 0xA800, (0xBFFF : Addr)] = true ∧
    (loaded imageI3).block.slot = .loaded (cartOf imageI3) ∧
    (0xA7FF : Addr).toNat - 0xA000 < (cartOf imageI3).ram.size ∧
    (cartOf imageI3).ram.size ≤ (0xA800 : Addr).toNat - 0xA000 ∧ created.block.slot = .empty := by decide

theorem witness_UnusableRange : within 0xFEA0 0xFEFF [0xFEA0, (0xFEFF : Addr)] = true := by decide

/-- For the reads, the writes and the placeholder: the ends of the I/O region, and the addresses beside it. -/
theorem witness_IoRegion :
    within 0xFF00 0xFF7F [0xFF00, (0xFF7F : Addr)] = true ∧ (0xFEFF : Addr).toNat < 0xFF00 ∧
    0xFF7F < (0xFF80 : Addr).toNat ∧ created.io = .placeholder := by decide

theorem witness_ReadChangesNoBlockState : region 0xFEFF ≠ .io ∧ region 0xFF80 ≠ .io ∧ created.io = .placeholder := by
  decide

theorem witness_IgnoredWrites :
    within 0x0000 0x7FFF [0x0000, (0x7FFF : Addr)] = true ∧ within 0xFEA0 0xFEFF [0xFEA0, (0xFEFF : Addr)] = true := by
  decide

/-- A write, and of the addresses read afterwards one with no cell, one with another cell and one of the ROM area. -/
theorem witness_WriteChangesOnlyItsCell :
    ∃ t, (loaded imageI3).Inv ∧ exec (.wr 0xA7FF 0x44) (loaded imageI3) = .next t ∧
      region 0xA800 ≠ .io ∧ cell (loaded imageI3).block 0xA800 = none ∧
      cell (loaded imageI3).block 0xA7FE ≠ cell (loaded imageI3).block 0xA7FF ∧ region 0x0000 = .rom0 :=
  ⟨_, inv_loaded_I3, exec_wr _ _ _, by decide, by decide, by decide, by decide⟩

theorem witness_BusCommandsNeverFail :
    [0x0000, 0x7FFF, 0xA000, 0xBFFF, 0xFEA0, 0xFEFF].all
      (fun a => decide (cell created.block a = none) && decide (region a ≠ .io)) = true := by decide

theorem witness_BusAccessesAreIdempotent : (loaded imageI3).Inv ∧ region 0xA7FF ≠ .io ∧ region 0xA800 ≠ .io :=
  ⟨inv_loaded_I3, by decide, by decide⟩

/-- A work-memory cell through its echo, and a cartridge RAM cell, with commands between. -/
theorem witness_ReadReturnsTheLastWrittenByte :
    (loaded imageI3).Inv ∧
    cell (loaded imageI3).block 0xC123 = some (.wram 0x123) ∧
    cell (loaded imageI3).block 0xE123 = some (.wram 0x123) ∧
    cell (loaded imageI3).block 0xA7FF = some (.ram 0x7FF) ∧
    cell (loaded imageI3).block 0xC124 ≠ some (.wram 0x123) ∧
    cell (loaded imageI3).block 0xA7FE ≠ some (.ram 0x7FF) ∧
    (∃ t, runCommands [.wr 0xC123 0x5A, .wr 0xC124 0x01, .hchk, .cunload] (loaded imageI3) = some t) ∧
    (∃ t, runCommands [.wr 0xA7FF 0x44, .wr 0xA7FE 0x01, .hchk] (loaded imageI3) = some t) :=
  ⟨inv_loaded_I3, by decide, by decide, by decide, by decide, by decide,
    Option.isSome_iff_exists.mp (by decide), Option.isSome_iff_exists.mp (by decide)⟩

/-- Each failing case, at the ends of its range. -/
theorem witness_FailingLoadsRollBack :
    (presented .openFail true true).nextLoad.src = .openFail ∧
    (presented (.file 0x014F ⟨0x014F, []⟩) false true).nextLoad.src = .file 0x014F ⟨0x014F, []⟩ ∧
    (presented (.file 0x0150 imageI0) false true).nextLoad = ⟨.file 0x0150 imageI0, false, true⟩ ∧
    (presented (.file 0x0150 ⟨0x014F, []⟩) true true).nextLoad = ⟨.file 0x0150 ⟨0x014F, []⟩, true, true⟩ ∧
    (presented (.file 0x8000 imageI4) true true).nextLoad = ⟨.file 0x8000 imageI4, true, true⟩ ∧
    verifyChecksum imageI4 = false ∧
    (presented (.file 0x8000 imageI6) true false).nextLoad = ⟨.file 0x8000 imageI6, true, false⟩ ∧
    verifyChecksum imageI6 = true ∧
    0 < (decodeRamSize (decodeHeader (headerSnapshot imageI6)).ramSizeCode).1 := by decide

/-- The shortest image, without RAM, and one with RAM. -/
theorem witness_SuccessfulLoadFillsTheSlot :
    (presented (.file 0x0150 imageI0) true false).nextLoad = ⟨.file 0x0150 imageI0, true, false⟩ ∧
    imageI0.size = 0x0150 ∧ verifyChecksum imageI0 = true ∧
    ¬0 < (decodeRamSize (decodeHeader (headerSnapshot imageI0)).ramSizeCode).1 ∧
    (presented (.file 0x8000 imageI6) true true).nextLoad = ⟨.file 0x8000 imageI6, true, true⟩ ∧
    imageI6.size = 0x8000 ∧ verifyChecksum imageI6 = true := by decide

theorem witness_LoadInputIsPresentedOrFree :
    (presented (.file 0x0150 imageI0) true false).loads = ⟨.file 0x0150 imageI0, true, false⟩ :: [] ∧
    State.reset.loads = [] ∧ (ImageSource.file 0x0150 imageI0).wf = true := by decide

theorem witness_LoadAlwaysCompletes : respOf .cload (presented .openFail true true) = some (.load .openFailure false) ∧
    LoadStatus.openFailure ≠ .ok := by decide

theorem witness_UnloadEmptiesTheSlot : created.block.slot = .empty ∧ (loaded imageI0).block.slot ≠ .empty := by decide

theorem witness_OnlyLoaderCommandsMoveTheSlot :
    created.block.slot = .empty ∧
    nextHas (exec .cload (presented (.file 0x0150 imageI0) true true)) (fun t => t.block.slot != .empty) = true ∧
    (loaded imageI0).block.slot = .loaded (cartOf imageI0) ∧
    nextHas (exec .cunload (loaded imageI0)) (fun t => t.block.slot == .empty) = true := by decide

/-- Image I2 has the CGB flag and an old licence, image I1 neither. -/
theorem witness_DecoderResolvesTitleFlagsAndLicense :
    (decodeHeader (headerSnapshot imageI2)).cgbSupported = true ∧
    (decodeHeader (headerSnapshot imageI1)).cgbSupported = false ∧
    fieldByte (headerSnapshot imageI1) .oldLicense 0 = 0x33 ∧
    fieldByte (headerSnapshot imageI2) .oldLicense 0 ≠ 0x33 := by decide

theorem witness_VisibleTitleEndsAtTheFirstZero :
    15 = (visibleTitle (decodeHeader (headerSnapshot imageI2))).length ∧
    (decodeHeader (headerSnapshot imageI2)).cgbSupported = true ∧
    12 = (visibleTitle (decodeHeader (headerSnapshot imageI1))).length := by decide

theorem witness_HdecReportsTheDecodedHeader :
    (loaded imageI1).block.slot = .loaded (cartOf imageI1) ∧ created.block.slot = .empty := by decide

/-- The recurrence over the first `n` bytes of 0x0134–0x014C. -/
def checksumAfter (rom : Memory) : Nat → Byte
  | 0 => 0x00
  | n + 1 => checksumAfter rom n - rom.get (0x0134 + n) - 1

theorem witness_HchkRunsTheRecurrence :
    (loaded imageI1).block.slot = .loaded (cartOf imageI1) ∧ checksumAfter imageI1 0 = 0x00 ∧
    (∀ n < 25, (checksumAfter imageI1 (n + 1)).toNat =
      ((checksumAfter imageI1 n).toNat + 512 - ((cartOf imageI1).rom.get (0x0134 + n)).toNat - 1) % 256) ∧
    created.block.slot = .empty := by decide

theorem witness_SingleByteChangeBreaksTheChecksum :
    imageI1.wf = true ∧ verifyChecksum imageI1 = true ∧ (0x43 : Byte) ≠ imageI1.get 0x0134 ∧
    (0x01 : Byte) ≠ imageI1.get 0x014D ∧ (0x0133 < 0x0134 ∨ 0x014D < 0x0133) ∧
    (0x014E < 0x0134 ∨ 0x014D < 0x014E) := by decide

theorem witness_RomSizeLookup :
    within 0x00 0x08 [0x00, (0x08 : Byte)] = true ∧ within 0x09 0x51 [0x09, (0x51 : Byte)] = true ∧
    within 0x55 0xFF [0x55, (0xFF : Byte)] = true := by decide

theorem witness_RamSizeLookup : within 0x06 0xFF [0x06, (0xFF : Byte)] = true := by decide

theorem witness_PublisherNameLookup :
    (0x0001 : Word).toNat = 0x01 ∧ (0x3031 : Word).toNat = 0x3031 ∧ 0xFF < (0x0100 : Word).toNat ∧
    within 0x0000 0x00FF [0x0000, 0x0002, (0x00FF : Word)] = true ∧ (0x0002 : Word).toNat ≠ 0x01 ∧
    (0x3030 : Word).toNat ≠ 0x3031 := by decide

theorem witness_LicenseRegistryIsReadableAt014B :
    (loaded imageI2).Inv ∧ (loaded imageI2).block.slot = .loaded (cartOf imageI2) ∧
    matchingIsOld (cartOf imageI2) = true ∧ matchingIsOld (cartOf imageI1) = false :=
  ⟨inv_loaded_I2, by decide, by decide, by decide⟩

theorem witness_SignExtensionOfByte : 0x80 ≤ (0x80 : Byte).toNat ∧ (0x7F : Byte).toNat < 0x80 := by decide

/-- An RD of the I/O region, which changes the delegate's state, and one outside it, which does not. -/
theorem witness_OnlyStoringCommandsChangeTheBlock :
    ∃ t u, (∀ a v, Instr.rd 0xFF00 ≠ .wr a v) ∧ Instr.rd 0xFF00 ≠ .cload ∧ Instr.rd 0xFF00 ≠ .cunload ∧
      exec (.rd 0xFF00) State.reset = .next t ∧ (∀ a v, Instr.sext8 0x80 ≠ .wr a v) ∧ Instr.sext8 0x80 ≠ .cload ∧
      Instr.sext8 0x80 ≠ .cunload ∧ exec (.sext8 0x80) State.reset = .next u ∧
      (∀ a, Instr.sext8 0x80 = .rd a → region a ≠ .io) :=
  ⟨_, _, fun _ _ h => (nomatch h), fun h => (nomatch h), fun h => (nomatch h), rfl, fun _ _ h => (nomatch h),
    fun h => (nomatch h), fun h => (nomatch h), rfl, fun _ h => (nomatch h)⟩

theorem witness_DelegateIsCalledOnlyForIo :
    ∃ t u, exec (.rd 0xFF7F) State.reset = .next t ∧ t.io ≠ State.reset.io ∧
      exec (.wr 0xFF00 0x01) State.reset = .next u ∧ u.io ≠ State.reset.io :=
  ⟨_, _, rfl, by decide, rfl, by decide⟩

/-- Image I0 longer than the bus reaches, with one byte past 0x7FFF. -/
def hiddenImage (v : Byte) : Memory := ⟨0x8001, [(0x014D, 0xE7), (0x8000, v)]⟩

theorem witness_BusRunsCannotSeeHiddenCartridgeState :
    (loaded (hiddenImage 0x01)).Inv ∧ (loaded (hiddenImage 0x02)).Inv ∧
    BusEquivalent (loaded (hiddenImage 0x01)) (loaded (hiddenImage 0x02)) ∧
    loaded (hiddenImage 0x01) ≠ loaded (hiddenImage 0x02) ∧
    (∀ i ∈ [Instr.rd 0x7FFF, .wr 0xC000 0x01], isBusCommand i = true) := by
  refine ⟨inv_of_image _ _ rfl rfl (by decide) (by decide) (by decide) (by decide),
    inv_of_image _ _ rfl rfl (by decide) (by decide) (by decide) (by decide), ?_, by decide, by decide⟩
  exact { vram := rfl, wram := rfl, oam := rfl, hram := rfl, ie := rfl, io := rfl,
          rom := fun i hi => by
            have h : ¬(0x8000 < i) := by omega
            have h' : ¬(0x8000 = i) := by omega
            simp [loaded, BlockState.romByte, BlockState.setSlot, State.setBlock, cartOf, hiddenImage, Memory.get,
              getCell, h, h'],
          ramSize := fun _ _ => Iff.rfl, ram := fun _ _ => rfl }

theorem witness_EqualContentsAreEqualArrays :
    ((Memory.zeros 4).set 1 0x05).wf = true ∧ (Memory.ofBytes [0x00, 0x05, 0x00, 0x00]).wf = true ∧
    ((Memory.zeros 4).set 1 0x05).size = (Memory.ofBytes [0x00, 0x05, 0x00, 0x00]).size ∧
    ∀ i, ((Memory.zeros 4).set 1 0x05).get i = (Memory.ofBytes [0x00, 0x05, 0x00, 0x00]).get i :=
  ⟨by decide, by decide, by decide, fun _ => rfl⟩

theorem witness_InvariantHoldsAtCreation : State.reset.Created ∧ created.Created := ⟨.inl rfl, .inr rfl⟩

/-- The step of a waiting CLOAD with an image presented. -/
theorem witness_EveryStepKeepsTheInvariant :
    ∃ t, State.Inv { loaded imageI0 with
        commands := [0x1000000000], loads := [⟨.file 0x8000 imageI6, true, true⟩] } ∧
      step { loaded imageI0 with
        commands := [0x1000000000], loads := [⟨.file 0x8000 imageI6, true, true⟩] } = .next t :=
  ⟨_, inv_of_image _ imageI0 rfl rfl (by decide) (by decide) (by decide) (by decide), rfl⟩

/-- A run from creation that loads a cartridge: present an image, issue CLOAD, step. -/
theorem witness_ReachableCartridgesAreConsistent :
    ∃ s, Reachable s ∧ s.block.slot = .loaded (cartOf imageI0) :=
  ⟨_, .step _ _ (.issue _ 0x1000000000 (.present _ ⟨.file 0x0150 imageI0, true, true⟩ (by decide)
    (.created State.reset (.inl rfl)))) rfl, by decide⟩

end Sys2Proof.Machine.Tests
end

section
/-! PROOFS. The cartridge slot (10_state.md R26): which commands can move it between empty and loaded, and the sizes
it gives. -/

namespace Sys2Proof.Machine

@[simp] theorem BlockState.setRam_slot_eq_empty_iff (b : BlockState) (o : Nat) (v : Byte) :
    (b.setRam o v).slot = .empty ↔ b.slot = .empty := by
  rcases b.setRam_slot o v with h | ⟨c, hc, -, h⟩
  · rw [h]
  · simp [h, hc]

/-- A bus write neither fills nor empties the slot: at most it changes a byte of a loaded cartridge's RAM (R181). -/
@[simp] theorem blockWrite_slot_eq_empty_iff (b : BlockState) (a : Addr) (v : Byte) :
    (blockWrite b a v).slot = .empty ↔ b.slot = .empty := by
  rcases blockWrite_cases b a v with ⟨-, h⟩ | ⟨-, h⟩ | ⟨-, h⟩ | ⟨-, h⟩ | ⟨-, h⟩ | ⟨-, h⟩ | ⟨-, h⟩ | ⟨-, h⟩ <;>
    simp [h]

/-- Every command but CLOAD and CUNLOAD leaves the slot empty exactly where it was empty. -/
theorem exec_slot_eq_empty_iff {i : Instr} {s t : State} (h : exec i s = .next t) (hl : i ≠ .cload)
    (hu : i ≠ .cunload) : t.block.slot = .empty ↔ s.block.slot = .empty := by
  rcases exec_cases h with ⟨a, -, rfl⟩ | ⟨a, v, -, rfl⟩ | ⟨hi, -⟩ | ⟨hi, -⟩ | ⟨r, rfl, -⟩
  · simp
  · simp
  · exact absurd hi hl
  · exact absurd hi hu
  · simp

/-- The end of a load never empties the slot: it fills it (R109) or leaves it as it was (R110). -/
theorem State.slot_eq_empty_of_finishLoad {s : State} {r : Except LoadStatus (Cart × Bool)}
    (h : (s.finishLoad r).block.slot = .empty) : s.block.slot = .empty := by
  rcases finishLoad_cases s r with ⟨c, unk, -, ht⟩ | ⟨e, -, ht⟩
  · simp [ht] at h
  · simpa [ht] using h

/-- CUNLOAD leaves the slot empty (R114), so of the two loader commands only CLOAD can fill it. -/
theorem eq_cload_of_exec_fills_slot {i : Instr} {s t : State} (h : exec i s = .next t)
    (hs : s.block.slot = .empty) (ht : t.block.slot ≠ .empty) : i = .cload := by
  by_contra hl
  have hu : i ≠ .cunload := by
    rintro rfl
    obtain rfl : (s.setBlock (s.block.setSlot .empty)).setResp .none = t := by simpa using h
    simp at ht
  exact ht ((exec_slot_eq_empty_iff h hl hu).mpr hs)

/-- CLOAD never empties the slot, so of the two loader commands only CUNLOAD can empty it. -/
theorem eq_cunload_of_exec_empties_slot {i : Instr} {s t : State} (h : exec i s = .next t)
    (hs : s.block.slot ≠ .empty) (ht : t.block.slot = .empty) : i = .cunload := by
  by_contra hu
  have hl : i ≠ .cload := by
    rintro rfl
    obtain rfl : s.takeLoad.finishLoad (loadCart s.nextLoad) = t := by simpa using h
    exact hs (by simpa using State.slot_eq_empty_of_finishLoad ht)
  exact hs ((exec_slot_eq_empty_iff h hl hu).mp ht)

theorem BlockState.romSize_of_empty {b : BlockState} (h : b.slot = .empty) : b.romSize = 0 := by
  simp [BlockState.romSize, h]
theorem BlockState.ramSize_of_empty {b : BlockState} (h : b.slot = .empty) : b.ramSize = 0 := by
  simp [BlockState.ramSize, h]
theorem BlockState.romSize_of_loaded {b : BlockState} {c : Cart} (h : b.slot = .loaded c) :
    b.romSize = c.rom.size := by simp [BlockState.romSize, h]
theorem BlockState.ramSize_of_loaded {b : BlockState} {c : Cart} (h : b.slot = .loaded c) :
    b.ramSize = c.ram.size := by simp [BlockState.ramSize, h]

/-- Settles O34: every command other than CLOAD and CUNLOAD keeps the slot empty or keeps it loaded; CLOAD fills it or
keeps it, CUNLOAD empties it. -/
theorem onlyLoaderCommandsMoveTheSlot : Obligations.OnlyLoaderCommandsMoveTheSlot := by
  refine ⟨fun i s t h => ⟨eq_cload_of_exec_fills_slot h, eq_cunload_of_exec_empties_slot h⟩, rfl, fun b h => ?_,
    fun b c h => ?_⟩
  · exact ⟨BlockState.romSize_of_empty h, BlockState.ramSize_of_empty h⟩
  · exact ⟨BlockState.romSize_of_loaded h, BlockState.ramSize_of_loaded h⟩

end Sys2Proof.Machine
end

section
/-! PROOFS. The frame of RD (20_memory.md R60): what a bus read gives does not depend on the delegate outside the I/O
region, and a read leaves the reference placeholder as it was. -/

namespace Sys2Proof.Machine

/-- In the I/O region the bus read is the delegate's (R190). -/
theorem busRead_of_io (b : BlockState) (io : IoState) {a : Addr} (h : region a = .io) :
    busRead b io a = io.read a := by simp [busRead, h]

/-- Outside the I/O region the bus read leaves the delegate as it was. -/
theorem busRead_snd_of_ne_io (b : BlockState) (io : IoState) {a : Addr} (h : region a ≠ .io) :
    (busRead b io a).2 = io := by
  cases hr : region a <;> simp [busRead, hr] at h ⊢

/-- Outside the I/O region the byte read is one of the block's alone, whatever the delegate. -/
theorem busRead_fst_of_ne_io (b : BlockState) (io io' : IoState) {a : Addr} (h : region a ≠ .io) :
    (busRead b io a).1 = (busRead b io' a).1 := by
  cases hr : region a <;> simp [busRead, hr] at h ⊢

/-- States with the same block read the same at every address outside the I/O region. -/
theorem State.peek_eq_of_block_eq {s t : State} (hb : t.block = s.block) {a : Addr} (h : region a ≠ .io) :
    t.peek a = s.peek a := by
  rw [State.peek, hb]
  exact busRead_fst_of_ne_io _ _ _ h

/-- The reference placeholder has no state a read could change (R198). -/
@[simp] theorem busRead_placeholder_snd (b : BlockState) (a : Addr) :
    (busRead b .placeholder a).2 = .placeholder := by
  by_cases h : region a = .io
  · rw [busRead_of_io _ _ h]; rfl
  · exact busRead_snd_of_ne_io _ _ h

/-- Settles O19: RD stores into the delegate's state and the response port only, and the placeholder has no state. -/
theorem readChangesNoBlockState : Obligations.ReadChangesNoBlockState := by
  intro s a
  refine ⟨_, exec_rd a s, rfl, fun b hb => State.peek_eq_of_block_eq (by simp) hb, fun hp => ?_, rfl, rfl, rfl⟩
  simp [hp]

end Sys2Proof.Machine
end

section
/-! PROOFS. The words the decoder rejects (30_encoding.md R74, R75): which codes R72 assigns, how a row of
spec/opcode_table.json is laid out in the fields of a word, and what the step does on a rejected word. -/

namespace Sys2Proof

/-- R72 gives no code twice: a row's code selects that row. -/
@[simp] theorem mnemonicOf_op (m : Mnemonic) : mnemonicOf m.op = some m := by
  cases m <;> rfl

/-- The row a code selects bears that code. -/
theorem op_of_mnemonicOf {op : Byte} {m : Mnemonic} (h : mnemonicOf op = some m) : m.op = op := by
  simpa using List.find?_some h

/-- The unassigned codes of R75, as numbers. -/
def UnassignedCode (op : Nat) : Prop :=
  (0x02 ≤ op ∧ op ≤ 0x0F) ∨ (0x12 ≤ op ∧ op ≤ 0x1F) ∨ (0x26 ≤ op ∧ op ≤ 0x2F) ∨ 0x39 ≤ op

/-- A code selects no row exactly when it lies in a range of R75: the codes of R72 are the gaps between them. -/
theorem mnemonicOf_eq_none_iff (op : Byte) : mnemonicOf op = none ↔ UnassignedCode op.toNat := by
  rw [mnemonicOf, List.find?_eq_none]
  simp only [Mnemonic.all, Mnemonic.op, List.forall_mem_cons, List.not_mem_nil, beq_iff_eq, ← BitVec.toNat_inj,
    BitVec.reduceToNat, UnassignedCode, false_imp_iff, implies_true, and_true]
  omega

/-- A word whose code selects no row is rejected for its code (R75). -/
theorem decode_of_mnemonicOf_none {w : Command} (h : mnemonicOf (opField w) = none) :
    decode w = .error (.unassignedOpcode (opField w)) := by
  simp [decode, h]

/-- A word with a row's code and a bit of its "must be zero" column set is rejected for that row (R74). -/
theorem decode_of_reserved_bit {w : Command} {m : Mnemonic} (hop : opField w = m.op)
    (h : ¬(fieldA w &&& m.zeroA = 0 ∧ fieldB w &&& m.zeroB = 0)) : decode w = .error (.reservedBits m) := by
  simp only [decode, hop, mnemonicOf_op, if_neg h]

/-- Every mnemonic has a row in spec/opcode_table.json. -/
theorem exists_row (m : Mnemonic) : ∃ r ∈ opcodeTable, r.mnemonic = m := by
  cases m <;> decide

/-- Each row of spec/opcode_table.json is its mnemonic's row of R72: the pattern is the code over zero operands, and
the mask keeps the code and the "must be zero" columns. -/
theorem row_layout : ∀ r ∈ opcodeTable, r.pattern = r.mnemonic.op ++ (0 : Word) ++ (0 : Word) ∧
    r.mask = (0xFF : Byte) ++ r.mnemonic.zeroA ++ r.mnemonic.zeroB := by
  decide

theorem opField_pattern {r : OpcodeRow} (hr : r ∈ opcodeTable) : opField r.pattern = r.mnemonic.op := by
  rw [(row_layout r hr).1, opField_word]

/-- A word with a row's code and its "must be zero" bits clear matches the row. -/
theorem and_mask_eq_pattern {r : OpcodeRow} (hr : r ∈ opcodeTable) {w : Command} (hop : opField w = r.mnemonic.op)
    (ha : fieldA w &&& r.mnemonic.zeroA = 0) (hb : fieldB w &&& r.mnemonic.zeroB = 0) :
    w &&& r.mask = r.pattern := by
  obtain ⟨hp, hm⟩ := row_layout r hr
  rw [hp, hm, ← word_of_fields w, word_and, hop, ha, hb, show (0xFF : Byte) = BitVec.allOnes 8 from rfl,
    BitVec.and_allOnes]

/-- Words that agree from bit 32 up have the same code. -/
theorem opField_eq_of_shiftRight_eq {w v : Command} (h : w >>> 32 = v >>> 32) : opField w = opField v := by
  apply BitVec.eq_of_toNat_eq
  simpa [opField_toNat, Nat.shiftRight_eq_div_pow] using congrArg BitVec.toNat h

end Sys2Proof

namespace Sys2Proof.Machine

/-- The step on a word the decoder rejects is refused, for the decoder's reason. -/
theorem step_of_decode_error {s : State} {w : Command} {rest : List Command} {e : DecodeError}
    (hc : s.commands = w :: rest) (hd : decode w = .error e) : step s = .refused (refusalOf e) := by
  simp [step, hc, hd]

/-- Settles O4: a word with a row's code that does not match the row has a must-be-zero bit set, and the decoder
rejects it. -/
theorem reservedBitSetIsRefused : Obligations.ReservedBitSetIsRefused := by
  intro s w rest hc r hr hcode hmask
  have hop : opField w = r.mnemonic.op := by rw [opField_eq_of_shiftRight_eq hcode, opField_pattern hr]
  exact step_of_decode_error hc (decode_of_reserved_bit hop fun ⟨ha, hb⟩ => hmask (and_mask_eq_pattern hr hop ha hb))

/-- Settles O5: the codes that select no row are those of the four ranges; a code outside them is some row's. -/
theorem unassignedCodeIsRefused : Obligations.UnassignedCodeIsRefused := by
  intro s w rest op hc hop
  rw [← opField_toNat] at hop
  subst hop
  refine ⟨fun (h : UnassignedCode _) => ?_, fun (h : ¬UnassignedCode _) => ?_⟩
  · rw [BitVec.ofNat_toNat, BitVec.setWidth_eq]
    exact step_of_decode_error hc (decode_of_mnemonicOf_none ((mnemonicOf_eq_none_iff _).mpr h))
  · obtain ⟨m, hm⟩ := Option.ne_none_iff_exists'.mp (mt (mnemonicOf_eq_none_iff _).mp h)
    obtain ⟨r, hr, rfl⟩ := exists_row m
    exact ⟨r, hr, by rw [← opField_toNat, opField_pattern hr, op_of_mnemonicOf hm]⟩

end Sys2Proof.Machine
end

section
/-! PROOFS. The cartridge loader (41_cartridge_loader.md): what CLOAD's checks answer in the order of R100, what a
cartridge made of a file holds (R109, R111), and an empty slot's bus and header commands (R114). -/

namespace Sys2Proof.Machine

/-! ## The checks of R100, one lemma per check: the ones before it pass, and it decides -/

theorem loadCart_of_openFail {inp : LoadInput} (h : inp.src = .openFail) :
    loadCart inp = .error .openFailure := by
  simp [loadCart, h]

section
variable {inp : LoadInput} {length : Nat} {bytes : Memory} (hsrc : inp.src = .file length bytes)
include hsrc

theorem loadCart_of_short_file (hlen : length < Config.minRomBytes) : loadCart inp = .error .tooSmall := by
  simp [loadCart, hsrc, hlen]

variable (hlen : Config.minRomBytes ≤ length)
include hlen

theorem loadCart_of_romAlloc_failed (hrom : inp.romAllocOk = false) :
    loadCart inp = .error .allocationFailure := by
  simp [loadCart, hsrc, hlen.not_gt, hrom]

variable (hrom : inp.romAllocOk = true)
include hrom

theorem loadCart_of_bytes_missing (hread : bytes.size < length) : loadCart inp = .error .readFailure := by
  simp [loadCart, hsrc, hlen.not_gt, hrom, hread]

variable (hread : length ≤ bytes.size)
include hread

theorem loadCart_of_bad_checksum (hsum : verifyChecksum bytes = false) :
    loadCart inp = .error .checksumMismatch := by
  simp [loadCart, hsrc, hlen.not_gt, hrom, hread.not_gt, hsum]

variable (hsum : verifyChecksum bytes = true)
include hsum

theorem loadCart_of_ramAlloc_failed (hsize : 0 < (cartOf bytes).ram.size) (hram : inp.ramAllocOk = false) :
    loadCart inp = .error .allocationFailure := by
  simp [loadCart, hsrc, hlen.not_gt, hrom, hread.not_gt, hsum, hsize, hram]

/-- A cartridge without RAM needs no RAM allocation (R108). -/
theorem loadCart_of_checks_passed (hram : 0 < (cartOf bytes).ram.size → inp.ramAllocOk = true) :
    loadCart inp = .ok (cartOf bytes, ramCodeUnknown bytes) := by
  have hram' : ¬(0 < (cartOf bytes).ram.size ∧ inp.ramAllocOk = false) := fun ⟨hsize, hfail⟩ => by
    simp [hram hsize] at hfail
  simp [loadCart, hsrc, hlen.not_gt, hrom, hread.not_gt, hsum, hram']

end

/-! ## CLOAD -/

/-- A load that stops at a check only responds the check's status (R14, R110). -/
theorem State.loadFailsWith_of_loadCart {s : State} {e : LoadStatus} (h : loadCart s.nextLoad = .error e) :
    s.LoadFailsWith e :=
  ⟨by rw [exec_cload, h]; rfl, s.takeLoad_block, s.takeLoad_io, s.takeLoad_commands⟩

/-- A load that passes every check puts the cartridge in the slot (R109). -/
theorem exec_cload_of_loadCart {s : State} {c : Cart} {unk : Bool} (h : loadCart s.nextLoad = .ok (c, unk)) :
    exec .cload s = .next { s.takeLoad with
      block := { s.block with slot := .loaded c }, resp := some (.load .ok unk) } := by
  rw [exec_cload, h, ← s.takeLoad_block]
  rfl

/-- Settles O29: each hypothesis is the check of R100 that stops the load. -/
theorem failingLoadsRollBack : Obligations.FailingLoadsRollBack := by
  intro s
  refine ⟨fun hsrc => State.loadFailsWith_of_loadCart (loadCart_of_openFail hsrc), fun length bytes hsrc =>
    ⟨fun hlen => ?_, fun hlen hrom => ?_, fun hlen hrom hread => ?_, fun hlen hrom hread hsum => ?_,
      fun hlen hrom hread hsum hsize hram => ?_⟩⟩ <;> apply State.loadFailsWith_of_loadCart
  · exact loadCart_of_short_file hsrc hlen
  · exact loadCart_of_romAlloc_failed hsrc hlen hrom
  · exact loadCart_of_bytes_missing hsrc hlen hrom hread
  · exact loadCart_of_bad_checksum hsrc hlen hrom hread hsum
  · exact loadCart_of_ramAlloc_failed hsrc hlen hrom hread hsum hsize hram

/-- Settles O30: the cartridge is `cartOf bytes`, whose snapshot is a slice of the file and whose RAM is zeroed. -/
theorem successfulLoadFillsTheSlot : Obligations.SuccessfulLoadFillsTheSlot := by
  intro s length bytes hsrc hsize hlen hrom hsum hram
  have hload := loadCart_of_checks_passed hsrc hlen hrom hsize.ge hsum hram
  have hraw : ∀ j < 0x50, (headerSnapshot bytes).getD j 0x00 = bytes.get (0x0100 + j) := bytes.slice_getD 0x0100 0x50
  exact ⟨cartOf bytes, ramCodeUnknown bytes, exec_cload_of_loadCart hload, s.takeLoad_io, s.takeLoad_commands, rfl,
    hsize, bytes.slice_length 0x0100 0x50, hraw, rfl, rfl, Memory.zeros_get _, rfl⟩

/-! ## CUNLOAD -/

theorem BlockState.setSlot_eq_self {b : BlockState} {sl : Slot} (h : b.slot = sl) : b.setSlot sl = b := by
  subst h; rfl

/-- With the slot empty, the ROM area and the cartridge RAM read the open bus (R175, R176, R180). -/
theorem busRead_of_empty {b : BlockState} (io : IoState) {a : Addr} (hb : b.slot = .empty)
    (ha : a.toNat ≤ 0x7FFF ∨ (0xA000 ≤ a.toNat ∧ a.toNat ≤ 0xBFFF)) : busRead b io a = (Config.openBus, io) := by
  have hr : region a = .rom0 ∨ region a = .romX ∨ region a = .eram := by
    rcases ha with h | ⟨h, h'⟩
    · rcases Nat.lt_or_ge a.toNat 0x4000 with h4 | h4
      · exact .inl (region_rom0 h4)
      · exact .inr (.inl (region_romX h4 (by omega)))
    · exact .inr (.inr (region_eram h (by omega)))
  rcases hr with h | h | h <;> simp [busRead, h, BlockState.romByte, BlockState.ramByte, hb]

/-- Settles O33: every later clause is about a state whose slot is empty. -/
theorem unloadEmptiesTheSlot : Obligations.UnloadEmptiesTheSlot := by
  refine ⟨rfl, fun s => ?_⟩
  have hempty : ((s.setBlock (s.block.setSlot .empty)).setResp .none).block.slot = .empty := rfl
  refine ⟨_, exec_cunload s, rfl, BlockState.romSize_of_empty hempty, BlockState.ramSize_of_empty hempty,
    BlockState.setSlot_eq_self, fun a ha => ?_, exec_hdec_empty hempty, exec_hchk_empty hempty, rfl⟩
  rw [exec_rd, busRead_of_empty _ hempty ha]
  rfl

end Sys2Proof.Machine
end

section
/-! PROOFS. The lookups of the header parser (42_header_decoder.md R140–R147): the words of the commands with a lookup,
the two size decoders and the publisher registries, code range by code range. -/

namespace Sys2Proof

/-- The word of a command as a number: code, `A` and `B` at bits 32, 16 and 0 (30_encoding.md R70). -/
theorem encode_toNat (i : Instr) :
    (encode i).toNat = i.mnemonic.op.toNat * 2 ^ 32 + i.wordA.toNat * 2 ^ 16 + i.wordB.toNat := by
  rw [encode, toNat_word]
  omega

/-- A byte operand alone fills the low byte of `A`, and the rest of the operand fields is 0 (R73). -/
theorem encode_toNat_of_byte {i : Instr} {code : Byte} (ha : i.wordA = code.setWidth 16) (hb : i.wordB = 0) :
    (encode i).toNat = i.mnemonic.op.toNat * 2 ^ 32 + code.toNat * 2 ^ 16 := by
  have hcode : (code.setWidth 16).toNat = code.toNat := BitVec.toNat_setWidth_of_le (by decide)
  simp [encode_toNat, ha, hb, hcode]

end Sys2Proof

namespace Sys2Proof.Machine

/-! ## The size decoders -/

theorem decodeRomSize_of_le_8 {code : Byte} (h : code.toNat ≤ 0x08) :
    decodeRomSize code = (32768 * 2 ^ code.toNat, false) := by
  rw [decodeRomSize, if_pos h, Nat.shiftLeft_eq]

/-- The gap 0x09–0x51 and the codes from 0x55 up name no size (R140). -/
theorem decodeRomSize_of_unknown {code : Byte}
    (h : (0x09 ≤ code.toNat ∧ code.toNat ≤ 0x51) ∨ 0x55 ≤ code.toNat) : decodeRomSize code = (0, true) := by
  have hle : ¬code.toNat ≤ 0x08 := by omega
  have h52 : code ≠ 0x52 := by rintro rfl; simp at h
  have h53 : code ≠ 0x53 := by rintro rfl; simp at h
  have h54 : code ≠ 0x54 := by rintro rfl; simp at h
  simp only [decodeRomSize, if_neg hle, if_neg h52, if_neg h53, if_neg h54]

/-- The codes from 0x06 up name no size (R142). -/
theorem decodeRamSize_of_unknown {code : Byte} (h : 0x06 ≤ code.toNat) : decodeRamSize code = (0, true) := by
  have hne : ∀ d : Byte, d.toNat < 0x06 → code ≠ d := by rintro d hd rfl; omega
  simp [decodeRamSize, hne]

/-- Settles O42: the two ranges are the decoder's lemmas, and the three single codes evaluate. -/
theorem romSizeLookup : Obligations.RomSizeLookup := by
  intro code s
  refine ⟨encode_toNat_of_byte rfl rfl, _, _, exec_romsz code s, fun h => by simp [decodeRomSize_of_le_8 h], ?_, ?_,
    ?_, fun h => by simp [decodeRomSize_of_unknown h]⟩ <;> (rintro rfl; decide)

/-- Settles O43: the six known codes evaluate, and every other one is unknown. -/
theorem ramSizeLookup : Obligations.RamSizeLookup := by
  intro code s
  refine ⟨encode_toNat_of_byte rfl rfl, _, _, exec_ramsz code s, ?_, ?_, ?_, ?_, ?_, ?_,
    fun h => by simp [decodeRamSize_of_unknown h]⟩ <;> (rintro rfl; decide)

/-! ## The name lookups -/

/-- A lookup in a partial map gives the entry, or the fallback where there is none. -/
theorem getD_entry_or_fallback {α : Type} (o : Option α) (d : α) :
    o = some (o.getD d) ∨ (o = none ∧ o.getD d = d) := by
  cases o <;> simp

/-- Settles O44: the table is open, so its entry and its absence are the two cases. -/
theorem typeNameLookup : Obligations.TypeNameLookup := fun code s =>
  ⟨encode_toNat_of_byte rfl rfl, _, exec_tname code s, getD_entry_or_fallback (Config.typeNameTable code) _⟩

theorem publisherName_old {license : Word} (h : license.toNat ≤ 0xFF) :
    publisherName license true = (oldPublisherTable (license.setWidth 8)).getD unknownPublisherName := by
  simp [publisherName, h]

/-- A licence above 0xFF is no old code (R146). -/
theorem publisherName_old_of_lt {license : Word} (h : 0xFF < license.toNat) :
    publisherName license true = unknownPublisherName := by
  simp [publisherName, h.not_ge]

theorem publisherName_new (license : Word) :
    publisherName license false = (newPublisherTable license).getD unknownPublisherName := rfl

/-- Off its fixed entry the old registry is the open table (R146). -/
theorem oldPublisherTable_of_ne {code : Byte} (h : code ≠ 0x01) :
    oldPublisherTable code = Config.oldPublisherOther code := if_neg h

/-- Off its fixed entry the new registry is the open table (R146). -/
theorem newPublisherTable_of_ne {license : Word} (h : license ≠ 0x3031) :
    newPublisherTable license = Config.newPublisherOther license := if_neg h

/-- Settles O45: the registry the flag selects, at its fixed entry and off it. -/
theorem publisherNameLookup : Obligations.PublisherNameLookup := by
  intro license isOld s
  refine ⟨?_, _, exec_pname license isOld s, ?_, ?_, ?_, ?_, ?_⟩
  · rw [encode_toNat]
    cases isOld <;> rfl
  · rintro rfl hl
    obtain rfl : license = 0x01 := BitVec.eq_of_toNat_eq hl
    rfl
  · rintro rfl hl
    obtain rfl : license = 0x3031 := BitVec.eq_of_toNat_eq hl
    rfl
  · rintro rfl hl
    rw [publisherName_old_of_lt hl]
    rfl
  · rintro rfl hl hne
    have hcode : license.setWidth 8 ≠ (0x01 : Byte) := fun hc => by
      have hmod : license.toNat % 2 ^ 8 = 1 := by simpa using congrArg BitVec.toNat hc
      omega
    rw [publisherName_old hl, oldPublisherTable_of_ne hcode]
    exact getD_entry_or_fallback _ _
  · rintro rfl hne
    rw [publisherName_new, newPublisherTable_of_ne (by rintro rfl; exact hne rfl)]
    exact getD_entry_or_fallback _ _

end Sys2Proof.Machine
end

section
/-! PROOFS. The header decoder (42_header_decoder.md R131–R136, R149): the bytes of the title register, the licence as
a number, and the visible title as the register up to its first zero. -/

namespace Sys2Proof.Machine

/-! ## The title register and the flags -/

@[simp] theorem titleRegister_length (raw : List Byte) : (titleRegister raw).length = 17 := by
  unfold titleRegister
  split <;> simp [fieldBytes, headerLayout]

/-- Below byte 15 the register is the title field (R131). -/
theorem titleRegister_getD_of_lt_15 (raw : List Byte) {k : Nat} (hk : k < 15) (d : Byte) :
    (titleRegister raw).getD k d = fieldByte raw .title k := by
  have h16 : k < 16 := by omega
  have h15 : 15 ≠ k := by omega
  unfold titleRegister
  split <;> simp [fieldBytes, headerLayout, List.getElem?_append, h16, h15]

/-- Byte 15 is that of the field, or 0x00 where that byte is the CGB-support flag (R132). -/
theorem titleRegister_getD_15 (raw : List Byte) (d : Byte) :
    (titleRegister raw).getD 15 d = if cgbFlag (fieldByte raw .title 15) then 0x00 else fieldByte raw .title 15 := by
  unfold titleRegister
  split <;> simp [fieldBytes, headerLayout]

/-- Byte 16 is always 0x00 (R131). -/
theorem titleRegister_getD_16 (raw : List Byte) (d : Byte) : (titleRegister raw).getD 16 d = 0x00 := by
  unfold titleRegister
  split <;> simp [fieldBytes, headerLayout]

theorem cgbFlag_eq_true_iff (f : Byte) : cgbFlag f = true ↔ f = 0x80 ∨ f = 0xC0 := by simp [cgbFlag]

theorem sgbFlag_eq_true_iff (f : Byte) : sgbFlag f = true ↔ f = 0x03 := by simp [sgbFlag]

/-! ## The licence -/

/-- Two bytes side by side, high byte first, as a number. -/
theorem toNat_append_bytes (hi lo : Byte) : (hi ++ lo : Word).toNat = 256 * hi.toNat + lo.toNat := by
  rw [BitVec.toNat_append, ← Nat.shiftLeft_add_eq_or_of_lt lo.isLt, Nat.shiftLeft_eq]
  omega

/-- Under the sentinel 0x33 the licence is the new pair (R134). -/
theorem resolveLicense_of_sentinel {raw : List Byte} (h : fieldByte raw .oldLicense 0 = 0x33) :
    resolveLicense raw = fieldByte raw .newLicense 0 ++ fieldByte raw .newLicense 1 := if_pos h

/-- Without the sentinel the licence is the old byte (R134). -/
theorem resolveLicense_of_ne_sentinel {raw : List Byte} (h : fieldByte raw .oldLicense 0 ≠ 0x33) :
    resolveLicense raw = (fieldByte raw .oldLicense 0).setWidth 16 := if_neg h

/-- Settles O35: the decoder's fields are the title register, the two flag predicates and the resolved licence. -/
theorem decoderResolvesTitleFlagsAndLicense : Obligations.DecoderResolvesTitleFlagsAndLicense := by
  intro raw
  refine ⟨titleRegister_length raw, titleRegister_getD_16 raw _, fun k hk => titleRegister_getD_of_lt_15 raw hk _,
    cgbFlag_eq_true_iff _, fun hset => ?_, fun hclear => ?_, sgbFlag_eq_true_iff _, fun hnew => ?_, fun hold => ?_⟩
  · exact (titleRegister_getD_15 raw _).trans (if_pos hset)
  · exact (titleRegister_getD_15 raw _).trans (if_neg (Bool.eq_false_iff.mp hclear))
  · exact (congrArg BitVec.toNat (resolveLicense_of_sentinel hnew)).trans (toNat_append_bytes _ _)
  · exact (congrArg BitVec.toNat (resolveLicense_of_ne_sentinel hold)).trans
      (BitVec.toNat_setWidth_of_le (by decide))

/-! ## The visible title -/

/-- The visible title stops at the index of the register's first zero, or at its end where it has none. -/
theorem visibleTitle_eq_take_findIdx (h : Header) :
    visibleTitle h = h.title.take (h.title.findIdx (· = 0x00)) := by
  rw [visibleTitle, List.takeWhile_eq_take_findIdx_not]
  congr 2
  funext v
  simp

theorem visibleTitle_length (h : Header) : (visibleTitle h).length = h.title.findIdx (· = 0x00) := by
  rw [visibleTitle_eq_take_findIdx, List.length_take, min_eq_left List.findIdx_le_length]

theorem visibleTitle_eq_take (h : Header) : visibleTitle h = h.title.take (visibleTitle h).length := by
  rw [visibleTitle_length]
  exact visibleTitle_eq_take_findIdx h

/-- No byte of the register inside the visible title is zero. -/
theorem title_getD_ne_zero {h : Header} {j : Nat} (hj : j < (visibleTitle h).length) (d : Byte) :
    h.title.getD j d ≠ 0x00 := by
  rw [visibleTitle_length] at hj
  rw [List.getD_eq_getElem _ _ (hj.trans_le List.findIdx_le_length)]
  simpa using List.not_of_lt_findIdx hj

/-- A zero of the register bounds the visible title. -/
theorem visibleTitle_length_le {h : Header} {i : Nat} {d : Byte} (hz : h.title.getD i d = 0x00) :
    (visibleTitle h).length ≤ i :=
  Nat.le_of_not_lt fun hi => title_getD_ne_zero hi d hz

/-- Where the visible title ends inside the register, the register holds a zero. -/
theorem title_getD_visibleTitle_length {h : Header} (hlt : (visibleTitle h).length < h.title.length) (d : Byte) :
    h.title.getD (visibleTitle h).length d = 0x00 := by
  rw [List.getD_eq_getElem _ _ hlt]
  simp only [visibleTitle_length] at hlt ⊢
  simpa using List.findIdx_getElem (w := hlt)

/-- Settles O37: byte 16 of the register is zero, and under the CGB flag byte 15 is. -/
theorem visibleTitleEndsAtTheFirstZero : Obligations.VisibleTitleEndsAtTheFirstZero := by
  rintro raw k rfl
  have h16 : (visibleTitle (decodeHeader raw)).length ≤ 16 :=
    visibleTitle_length_le (titleRegister_getD_16 raw 0xFF)
  have hlt : (visibleTitle (decodeHeader raw)).length < (titleRegister raw).length := by
    rw [titleRegister_length]
    omega
  refine ⟨visibleTitle_eq_take _, title_getD_visibleTitle_length hlt _, fun j hj => title_getD_ne_zero hj _, h16,
    fun hset => visibleTitle_length_le (d := 0xFF) ?_⟩
  exact (titleRegister_getD_15 raw _).trans (if_pos hset)

/-! ## HDEC -/

/-- Settles O38: HDEC's two cases are those of the slot. -/
theorem hdecReportsTheDecodedHeader : Obligations.HdecReportsTheDecodedHeader :=
  ⟨rfl, fun _ => ⟨fun _ hs => exec_hdec_loaded hs, exec_hdec_empty⟩⟩

end Sys2Proof.Machine
end

section
/-! PROOFS. The header checksum (42_header_decoder.md R137, R138): the fold of the model is the recurrence of the spec,
index by index. -/

namespace Sys2Proof.Machine

/-- A slice one byte longer ends with the next byte of the array. -/
theorem Memory.slice_succ (m : Memory) (lo n : Nat) : m.slice lo (n + 1) = m.slice lo n ++ [m.get (lo + n)] := by
  simp [Memory.slice, List.range_succ]

/-- One step of the recurrence, from numbers back to bytes; 512 keeps the difference of the numbers positive. -/
theorem eq_sub_sub_one_of_toNat {c v r : Byte} (h : r.toNat = (c.toNat + 512 - v.toNat - 1) % 256) :
    r = c - v - 1 := by
  bv_omega

/-- A sequence that starts at 0x00 and subtracts the bytes of a slice in order, with a decrement each time, ends at
the fold over the slice. -/
theorem foldl_slice_eq_of_recurrence (m : Memory) (lo : Nat) {f : Nat → Byte} (h0 : f 0 = 0x00) :
    ∀ n, (∀ k < n, f (k + 1) = f k - m.get (lo + k) - 1) →
      (m.slice lo n).foldl (fun c v => c - v - 1) 0x00 = f n
  | 0, _ => h0.symm
  | n + 1, hstep => by
    have ih := foldl_slice_eq_of_recurrence m lo h0 n fun k hk => hstep k (by omega)
    rw [Memory.slice_succ, List.foldl_append, ih, hstep n (by omega)]
    rfl

/-- Settles O39: every sequence that satisfies the recurrence ends at the checksum the model folds. -/
theorem hchkRunsTheRecurrence : Obligations.HchkRunsTheRecurrence := by
  refine fun s f => ⟨fun c hs h0 hstep => ?_, exec_hchk_empty⟩
  have hsum : headerChecksum c.rom = f 25 :=
    foldl_slice_eq_of_recurrence c.rom 0x0134 h0 25 fun n hn => eq_sub_sub_one_of_toNat (hstep n hn)
  rw [exec_hchk_loaded hs, verifyChecksum, hsum]
  rfl

end Sys2Proof.Machine
end

section
/-! PROOFS. The bus dispatcher region by region (43_bus_dispatcher.md R171, R175–R195): each region kind as a range of
addresses, what the read multiplexer and the write effect do in it, and RD and WR as whole next states. -/

namespace Sys2Proof.Machine

/-! ## The region comparator -/

/-- The lowest address of a region (R171). -/
def RegionKind.first : RegionKind → Nat
  | .rom0 => 0x0000
  | .romX => 0x4000
  | .vram => 0x8000
  | .eram => 0xA000
  | .wram => 0xC000
  | .echo => 0xE000
  | .oam => 0xFE00
  | .unusable => 0xFEA0
  | .io => 0xFF00
  | .hram => 0xFF80
  | .ie => 0xFFFF

/-- The highest address of a region (R171). -/
def RegionKind.last : RegionKind → Nat
  | .rom0 => 0x3FFF
  | .romX => 0x7FFF
  | .vram => 0x9FFF
  | .eram => 0xBFFF
  | .wram => 0xDFFF
  | .echo => 0xFDFF
  | .oam => 0xFE9F
  | .unusable => 0xFEFF
  | .io => 0xFF7F
  | .hram => 0xFFFE
  | .ie => 0xFFFF

/-- An address between the ends of a region is of that region. -/
theorem region_of_between {a : Addr} {k : RegionKind} (lo : k.first ≤ a.toNat) (hi : a.toNat ≤ k.last) :
    region a = k := by
  cases k with
  | rom0 => exact region_rom0 (Nat.lt_succ_of_le hi)
  | romX => exact region_romX lo (Nat.lt_succ_of_le hi)
  | vram => exact region_vram lo (Nat.lt_succ_of_le hi)
  | eram => exact region_eram lo (Nat.lt_succ_of_le hi)
  | wram => exact region_wram lo (Nat.lt_succ_of_le hi)
  | echo => exact region_echo lo (Nat.lt_succ_of_le hi)
  | oam => exact region_oam lo (Nat.lt_succ_of_le hi)
  | unusable => exact region_unusable lo (Nat.lt_succ_of_le hi)
  | io => exact region_io lo (Nat.lt_succ_of_le hi)
  | hram => exact region_hram lo (Nat.lt_succ_of_le hi)
  | ie => exact region_ie (BitVec.eq_of_toNat_eq (Nat.le_antisymm hi lo))

/-- Every address lies between the ends of its region. -/
theorem between_of_region (a : Addr) : (region a).first ≤ a.toNat ∧ a.toNat ≤ (region a).last := by
  have hb := region_bounds a
  cases h : region a <;> simp only [h, RegionKind.first, RegionKind.last] at hb ⊢ <;> omega

theorem region_eq_iff (a : Addr) (k : RegionKind) : region a = k ↔ k.first ≤ a.toNat ∧ a.toNat ≤ k.last :=
  ⟨fun h => h ▸ between_of_region a, fun ⟨lo, hi⟩ => region_of_between lo hi⟩

/-- Settles O11: the clauses are the eleven kinds; the lowest region needs no lower bound, and that of `ie` is one
address. -/
theorem regionFollowsTheAddressMap : Obligations.RegionFollowsTheAddressMap := fun a =>
  ⟨(region_eq_iff a .rom0).trans (and_iff_right (Nat.zero_le _)), region_eq_iff a .romX, region_eq_iff a .vram,
    region_eq_iff a .eram, region_eq_iff a .wram, region_eq_iff a .echo, region_eq_iff a .oam,
    region_eq_iff a .unusable, region_eq_iff a .io, region_eq_iff a .hram,
    (region_eq_iff a .ie).trans ⟨fun ⟨lo, hi⟩ => Nat.le_antisymm hi lo, fun h => ⟨h.ge, h.le⟩⟩⟩

/-- The addresses to 0x7FFF are the two ROM regions. -/
theorem region_of_le_7FFF {a : Addr} (h : a.toNat ≤ 0x7FFF) : region a = .rom0 ∨ region a = .romX := by
  rcases Nat.lt_or_ge a.toNat 0x4000 with h4 | h4
  · exact .inl (region_rom0 h4)
  · exact .inr (region_of_between h4 h)

/-- Outside 0xFF00–0xFF7F no address is the delegate's (R37). -/
theorem region_ne_io {a : Addr} (h : a.toNat < 0xFF00 ∨ 0xFF7F < a.toNat) : region a ≠ .io := fun hio => by
  obtain ⟨lo, hi⟩ := (region_eq_iff a .io).mp hio
  simp only [RegionKind.first, RegionKind.last] at lo hi
  omega

/-! ## The read multiplexer and the write effect, region by region -/

section
variable {a : Addr}

/-- Both ROM regions are indexed by the address itself (R175, R176). -/
theorem busRead_of_rom (b : BlockState) (io : IoState) (h : region a = .rom0 ∨ region a = .romX) :
    busRead b io a = (b.romByte a.toNat, io) := by
  rcases h with h | h <;> simp [busRead, storageIndex, h]
theorem busRead_of_vram (b : BlockState) (io : IoState) (h : region a = .vram) :
    busRead b io a = (b.vram.get (a.toNat - 0x8000), io) := by simp [busRead, storageIndex, h]
theorem busRead_of_eram (b : BlockState) (io : IoState) (h : region a = .eram) :
    busRead b io a = (b.ramByte (a.toNat - 0xA000), io) := by simp [busRead, storageIndex, h]
theorem busRead_of_wram (b : BlockState) (io : IoState) (h : region a = .wram) :
    busRead b io a = (b.wram.get (a.toNat - 0xC000), io) := by simp [busRead, storageIndex, h]
theorem busRead_of_echo (b : BlockState) (io : IoState) (h : region a = .echo) :
    busRead b io a = (b.wram.get (a.toNat - 0xE000), io) := by simp [busRead, storageIndex, h]
theorem busRead_of_oam (b : BlockState) (io : IoState) (h : region a = .oam) :
    busRead b io a = (b.oam.get (a.toNat - 0xFE00), io) := by simp [busRead, storageIndex, h]
theorem busRead_of_unusable (b : BlockState) (io : IoState) (h : region a = .unusable) :
    busRead b io a = (Config.unusableRead, io) := by simp [busRead, h]
theorem busRead_of_hram (b : BlockState) (io : IoState) (h : region a = .hram) :
    busRead b io a = (b.hram.get (a.toNat - 0xFF80), io) := by simp [busRead, storageIndex, h]
theorem busRead_of_ie (b : BlockState) (io : IoState) (h : region a = .ie) :
    busRead b io a = (b.ie, io) := by simp [busRead, h]

theorem blockWrite_of_vram (b : BlockState) (v : Byte) (h : region a = .vram) :
    blockWrite b a v = b.setVram (a.toNat - 0x8000) v := by simpa [h] using blockWrite_cases b a v
theorem blockWrite_of_eram (b : BlockState) (v : Byte) (h : region a = .eram) :
    blockWrite b a v = b.setRam (a.toNat - 0xA000) v := by simpa [h] using blockWrite_cases b a v
theorem blockWrite_of_wram (b : BlockState) (v : Byte) (h : region a = .wram) :
    blockWrite b a v = b.setWram (a.toNat - 0xC000) v := by simpa [h] using blockWrite_cases b a v
theorem blockWrite_of_echo (b : BlockState) (v : Byte) (h : region a = .echo) :
    blockWrite b a v = b.setWram (a.toNat - 0xE000) v := by simpa [h] using blockWrite_cases b a v
theorem blockWrite_of_oam (b : BlockState) (v : Byte) (h : region a = .oam) :
    blockWrite b a v = b.setOam (a.toNat - 0xFE00) v := by simpa [h] using blockWrite_cases b a v
theorem blockWrite_of_hram (b : BlockState) (v : Byte) (h : region a = .hram) :
    blockWrite b a v = b.setHram (a.toNat - 0xFF80) v := by simpa [h] using blockWrite_cases b a v
theorem blockWrite_of_ie (b : BlockState) (v : Byte) (h : region a = .ie) :
    blockWrite b a v = b.setIe v := by simpa [h] using blockWrite_cases b a v

/-- The ROM area, the unusable range and the I/O region store nothing in the block (R177, R189, R191). -/
theorem blockWrite_of_no_storage (b : BlockState) (v : Byte)
    (h : region a = .rom0 ∨ region a = .romX ∨ region a = .unusable ∨ region a = .io) : blockWrite b a v = b := by
  rcases h with h | h | h | h <;> simpa [h] using blockWrite_cases b a v

theorem delegateWrite_of_io (io : IoState) (v : Byte) (h : region a = .io) :
    delegateWrite io a v = io.write a v := by simp [delegateWrite, h]

/-- Outside the I/O region a write does not call the delegate (R37). -/
theorem delegateWrite_of_ne_io (io : IoState) (v : Byte) (h : region a ≠ .io) : delegateWrite io a v = io := by
  cases hr : region a <;> simp [delegateWrite, hr] at h ⊢

end

/-! ## The cartridge behind the bus, in range, past its end and with the slot empty -/

section
variable {b : BlockState} {c : Cart} {i : Nat}

theorem BlockState.romByte_of_lt (hs : b.slot = .loaded c) (hi : i < c.rom.size) : b.romByte i = c.rom.get i := by
  simp [romByte, hs, hi]
theorem BlockState.romByte_of_ge (hs : b.slot = .loaded c) (hi : c.rom.size ≤ i) : b.romByte i = Config.openBus := by
  simp [romByte, hs, hi.not_gt]
theorem BlockState.romByte_of_empty (hs : b.slot = .empty) (i : Nat) : b.romByte i = Config.openBus := by
  simp [romByte, hs]

theorem BlockState.ramByte_of_lt (hs : b.slot = .loaded c) (hi : i < c.ram.size) : b.ramByte i = c.ram.get i := by
  simp [ramByte, hs, hi]
theorem BlockState.ramByte_of_ge (hs : b.slot = .loaded c) (hi : c.ram.size ≤ i) : b.ramByte i = Config.openBus := by
  simp [ramByte, hs, hi.not_gt]
theorem BlockState.ramByte_of_empty (hs : b.slot = .empty) (i : Nat) : b.ramByte i = Config.openBus := by
  simp [ramByte, hs]

theorem BlockState.setRam_of_lt (hs : b.slot = .loaded c) (hi : i < c.ram.size) (v : Byte) :
    b.setRam i v = b.setSlot (.loaded { c with ram := c.ram.set i v }) := by
  simp [setRam, setSlot, hs, hi]
theorem BlockState.setRam_of_ge (hs : b.slot = .loaded c) (hi : c.ram.size ≤ i) (v : Byte) : b.setRam i v = b := by
  simp [setRam, hs, hi.not_gt]
theorem BlockState.setRam_of_empty (hs : b.slot = .empty) (i : Nat) (v : Byte) : b.setRam i v = b := by
  simp [setRam, hs]

end

/-! ## RD -/

/-- A read that leaves the delegate as it was changes nothing but the response port. -/
theorem exec_rd_of_busRead {s : State} {a : Addr} {v : Byte} (h : busRead s.block s.io a = (v, s.io)) :
    exec (.rd a) s = .next { s with resp := some (.byte v) } := by
  rw [exec_rd, h]
  rfl

/-- Settles O14: the byte is the model's `romByte` at the address, whose cases are those of the slot. -/
theorem romAreaRead : Obligations.RomAreaRead := fun s _ ha =>
  ⟨_, exec_rd_of_busRead (busRead_of_rom s.block s.io (region_of_le_7FFF ha)), fun _ => BlockState.romByte_of_lt,
    fun _ => BlockState.romByte_of_ge, fun hs => BlockState.romByte_of_empty hs _⟩

/-- Settles O15: one clause per region, each from its bus read; the offsets in the echo and in `hram` are bounded by
the ends of the region. -/
theorem arrayRegionRead : Obligations.ArrayRegionRead := by
  refine fun s a => ⟨fun lo hi => ?_, fun lo hi => ?_, fun lo hi => ⟨by omega, ?_⟩, fun lo hi => ?_,
    fun lo hi => ⟨by omega, ?_⟩, fun h => ?_⟩ <;> apply exec_rd_of_busRead
  · exact busRead_of_vram _ _ (region_of_between lo hi)
  · exact busRead_of_wram _ _ (region_of_between lo hi)
  · exact busRead_of_echo _ _ (region_of_between lo hi)
  · exact busRead_of_oam _ _ (region_of_between lo hi)
  · exact busRead_of_hram _ _ (region_of_between lo hi)
  · exact busRead_of_ie _ _ (region_of_between h.ge h.le)

/-- Settles O16: the byte is the model's `ramByte` at the offset, whose cases are those of the slot. -/
theorem cartridgeRamRead : Obligations.CartridgeRamRead := fun s _ lo hi =>
  ⟨_, exec_rd_of_busRead (busRead_of_eram s.block s.io (region_of_between lo hi)), fun _ => BlockState.ramByte_of_lt,
    fun _ => BlockState.ramByte_of_ge, fun hs => BlockState.ramByte_of_empty hs _⟩

/-- Settles O17: the unusable range has no storage, so the byte does not depend on the state. -/
theorem unusableRangeRead : Obligations.UnusableRangeRead := fun _ _ lo hi =>
  exec_rd_of_busRead (busRead_of_unusable _ _ (region_of_between lo hi))

/-- Settles O18: in the I/O region the bus read is the delegate's, and elsewhere it leaves the delegate as it was. -/
theorem ioReadIsTheDelegates : Obligations.IoReadIsTheDelegates := by
  refine fun s a => ⟨fun lo hi => ?_, fun h => ?_⟩
  · rw [exec_rd, busRead_of_io _ _ (region_of_between lo hi)]
    rfl
  · exact ⟨_, exec_rd_of_busRead (Prod.ext rfl (busRead_snd_of_ne_io s.block s.io (region_ne_io h)))⟩

/-! ## WR -/

/-- A write outside the I/O region changes the block by its write effect, and else only the response port. -/
theorem exec_wr_of_blockWrite {s : State} {a : Addr} {v : Byte} {b : BlockState} (h : region a ≠ .io)
    (hb : blockWrite s.block a v = b) : exec (.wr a v) s = .next { s with block := b, resp := some .none } := by
  rw [exec_wr, hb, delegateWrite_of_ne_io _ _ h]
  rfl

/-- Settles O20: one clause per region, each from its write effect. -/
theorem arrayRegionWrite : Obligations.ArrayRegionWrite := by
  refine fun s a v => ⟨fun lo hi => ?_, fun lo hi => ?_, fun lo hi => ?_, fun lo hi => ?_, fun lo hi => ?_,
    fun h => ?_⟩ <;> refine exec_wr_of_blockWrite (region_ne_io (by omega)) ?_
  · exact blockWrite_of_vram _ v (region_of_between lo hi)
  · exact blockWrite_of_wram _ v (region_of_between lo hi)
  · exact blockWrite_of_echo _ v (region_of_between lo hi)
  · exact blockWrite_of_oam _ v (region_of_between lo hi)
  · exact blockWrite_of_hram _ v (region_of_between lo hi)
  · exact blockWrite_of_ie _ v (region_of_between h.ge h.le)

/-- Settles O21: the write effect is the model's `setRam` at the offset, whose cases are those of the slot. -/
theorem cartridgeRamWrite : Obligations.CartridgeRamWrite := by
  intro s a v lo hi
  have hw := blockWrite_of_eram s.block v (region_of_between lo hi)
  refine ⟨fun c hs ho => ?_, fun c hs ho => ?_, fun hs => ?_⟩ <;>
    refine exec_wr_of_blockWrite (region_ne_io (by omega)) (hw.trans ?_)
  · exact BlockState.setRam_of_lt hs ho v
  · exact BlockState.setRam_of_ge hs ho v
  · exact BlockState.setRam_of_empty hs _ v

/-- Settles O22: the ROM area and the unusable range are regions without a write effect. -/
theorem ignoredWrites : Obligations.IgnoredWrites := by
  intro s a v h
  have hr : region a = .rom0 ∨ region a = .romX ∨ region a = .unusable ∨ region a = .io := by
    rcases h with h | ⟨lo, hi⟩
    · exact (region_of_le_7FFF h).imp_right .inl
    · exact .inr (.inr (.inl (region_of_between lo hi)))
  exact exec_wr_of_blockWrite (region_ne_io (by omega)) (blockWrite_of_no_storage _ v hr)

/-- Settles O23: the I/O region has no write effect on the block, and the write is the delegate's. -/
theorem ioWriteIsTheDelegates : Obligations.IoWriteIsTheDelegates := by
  intro s a v lo hi
  have hr : region a = .io := region_of_between lo hi
  rw [exec_wr, blockWrite_of_no_storage _ v (.inr (.inr (.inr hr))), delegateWrite_of_io _ v hr]
  rfl

end Sys2Proof.Machine
end

section
/-! PROOFS. The utility predicates (44_utility.md R221–R229): the words of the commands with two byte operands, and each
carry, half-carry and extension as a number. -/

namespace Sys2Proof

/-- Two byte operands fill the low bytes of `A` and `B`, and the high bytes are 0 (R73). -/
theorem encode_toNat_of_two_bytes {i : Instr} {a b : Byte} (ha : i.wordA = a.setWidth 16)
    (hb : i.wordB = b.setWidth 16) :
    (encode i).toNat = i.mnemonic.op.toNat * 2 ^ 32 + a.toNat * 2 ^ 16 + b.toNat := by
  rw [encode_toNat, ha, hb, BitVec.toNat_setWidth_of_le (by decide), BitVec.toNat_setWidth_of_le (by decide)]

end Sys2Proof

namespace Sys2Proof.Machine

/-! ## Carries as numbers -/

/-- In a wider word the sum of two zero-extended operands does not wrap. -/
theorem toNat_setWidth_add_setWidth {w n : Nat} (h : w < n) (a b : BitVec w) :
    (a.setWidth n + b.setWidth n).toNat = a.toNat + b.toNat := by
  have hsum : a.toNat + b.toNat < 2 ^ n :=
    calc a.toNat + b.toNat < 2 ^ (w + 1) := by omega
      _ ≤ 2 ^ n := Nat.pow_le_pow_right (by decide) h
  rw [BitVec.toNat_add, BitVec.toNat_setWidth_of_le h.le, BitVec.toNat_setWidth_of_le h.le, Nat.mod_eq_of_lt hsum]

/-- The form of the add predicates: a bound compared with a sum taken in a wider word. -/
theorem decide_lt_setWidth_add_setWidth {w n : Nat} (h : w < n) (c : BitVec n) (a b : BitVec w) :
    decide (c < a.setWidth n + b.setWidth n) = decide (a.toNat + b.toNat > c.toNat) := by
  rw [decide_eq_decide, BitVec.lt_def, toNat_setWidth_add_setWidth h]

/-- The low bits of a word are its remainder. -/
theorem toNat_extractLsb'_zero {w : Nat} (n : Nat) (a : BitVec w) :
    (a.extractLsb' 0 n).toNat = a.toNat % 2 ^ n := by
  rw [BitVec.extractLsb'_toNat, Nat.shiftRight_zero]

theorem halfCarryAdd8_eq (a b : Byte) : halfCarryAdd8 a b = decide (a.toNat % 16 + b.toNat % 16 > 15) := by
  simp only [halfCarryAdd8, decide_lt_setWidth_add_setWidth (by decide : 4 < 16), toNat_extractLsb'_zero,
    BitVec.reduceToNat, Nat.reducePow]

theorem carryAdd8_eq (a b : Byte) : carryAdd8 a b = decide (a.toNat + b.toNat > 255) :=
  decide_lt_setWidth_add_setWidth (by decide) 0x00FF a b

theorem halfCarrySub8_eq (a b : Byte) : halfCarrySub8 a b = decide (a.toNat % 16 < b.toNat % 16) := by
  simp only [halfCarrySub8, BitVec.lt_def, toNat_extractLsb'_zero, Nat.reducePow]

theorem carrySub8_eq (a b : Byte) : carrySub8 a b = decide (a.toNat < b.toNat) := rfl

theorem halfCarryAdd16_eq (a b : Word) :
    halfCarryAdd16 a b = decide (a.toNat % 4096 + b.toNat % 4096 > 4095) := by
  simp only [halfCarryAdd16, decide_lt_setWidth_add_setWidth (by decide : 12 < 32), toNat_extractLsb'_zero,
    BitVec.reduceToNat, Nat.reducePow]

theorem carryAdd16_eq (a b : Word) : carryAdd16 a b = decide (a.toNat + b.toNat > 65535) :=
  decide_lt_setWidth_add_setWidth (by decide) 0xFFFF a b

/-! ## The predicates as commands -/

/-- Settles O47: the two predicates as numbers, each the response of its command. -/
theorem addPredicatesOnBytes : Obligations.AddPredicatesOnBytes := by
  intro a b s
  rw [← halfCarryAdd8_eq, ← carryAdd8_eq]
  exact ⟨encode_toNat_of_two_bytes rfl rfl, encode_toNat_of_two_bytes rfl rfl, exec_hcadd8 a b s, exec_cadd8 a b s⟩

/-- Settles O48: a borrow is a comparison of the operands, or of their low nibbles. -/
theorem subtractPredicatesOnBytes : Obligations.SubtractPredicatesOnBytes := by
  intro a b s
  rw [← halfCarrySub8_eq, ← carrySub8_eq]
  exact ⟨encode_toNat_of_two_bytes rfl rfl, encode_toNat_of_two_bytes rfl rfl, exec_hcsub8 a b s, exec_csub8 a b s⟩

/-- Settles O49: as on bytes, with the operands the whole of `A` and `B`. -/
theorem addPredicatesOnWords : Obligations.AddPredicatesOnWords := by
  intro a b s
  rw [← halfCarryAdd16_eq, ← carryAdd16_eq]
  exact ⟨encode_toNat _, encode_toNat _, exec_hcadd16 a b s, exec_cadd16 a b s⟩

/-! ## Sign extension -/

/-- A byte appended to a byte, as a number. -/
theorem toNat_append_byte (hi lo : Byte) : (hi ++ lo : Word).toNat = hi.toNat * 2 ^ 8 + lo.toNat := by
  rw [BitVec.toNat_append, ← Nat.shiftLeft_add_eq_or_of_lt lo.isLt, Nat.shiftLeft_eq]

theorem signExtend8_toNat_of_ge {v : Byte} (h : 0x80 ≤ v.toNat) : (signExtend8 v).toNat = 0xFF00 + v.toNat := by
  have hv : (0x80 : Byte) ≤ v := BitVec.le_def.mpr h
  rw [signExtend8, if_pos hv]
  exact toNat_append_byte 0xFF v

theorem signExtend8_toNat_of_lt {v : Byte} (h : v.toNat < 0x80) : (signExtend8 v).toNat = v.toNat := by
  have hv : ¬(0x80 : Byte) ≤ v := BitVec.not_le.mpr (BitVec.lt_def.mpr h)
  rw [signExtend8, if_neg hv]
  exact (toNat_append_byte 0x00 v).trans (by simp)

/-- The high byte 0xFF adds as much as the wider word takes off a negative number: 2¹⁶ − 2⁸. -/
theorem signExtend8_toInt (v : Byte) : (signExtend8 v).toInt = v.toInt := by
  rw [BitVec.toInt_eq_toNat_cond, BitVec.toInt_eq_toNat_cond]
  rcases Nat.lt_or_ge v.toNat 0x80 with h | h
  · rw [signExtend8_toNat_of_lt h, if_pos (by omega), if_pos (by omega)]
  · rw [signExtend8_toNat_of_ge h, if_neg (by omega), if_neg (by omega)]
    omega

/-- Settles O51: the word is the model's sign extension, on either side of 0x80. -/
theorem signExtensionOfByte : Obligations.SignExtensionOfByte := fun v s =>
  ⟨encode_toNat_of_byte rfl rfl, signExtend8 v, exec_sext8 v s, signExtend8_toInt v, signExtend8_toNat_of_ge,
    signExtend8_toNat_of_lt⟩

end Sys2Proof.Machine
end

section
/-! PROOFS. What can fail and what cannot (60_exceptions.md R249, R251): HDEC and HCHK are the only commands refused,
and only on an empty slot; RD and WR complete everywhere, and a read with no storage behind it gives a fixed byte. -/

namespace Sys2Proof.Machine

/-! ## Refusals -/

theorem BlockState.loaded_of_slot_ne_empty {b : BlockState} (h : b.slot ≠ .empty) : ∃ c, b.slot = .loaded c := by
  cases hs : b.slot with
  | empty => exact absurd hs h
  | loaded c => exact ⟨c, rfl⟩

/-- HDEC and HCHK are refused on an empty slot (R136, R138). -/
theorem exec_of_empty {i : Instr} {s : State} (hi : i = .hdec ∨ i = .hchk) (hs : s.block.slot = .empty) :
    exec i s = .refused .emptySlot := by
  rcases hi with rfl | rfl
  · exact exec_hdec_empty hs
  · exact exec_hchk_empty hs

/-- Every command completes, HDEC and HCHK where a cartridge is loaded. -/
theorem exec_completes {i : Instr} {s : State} (h : ¬((i = .hdec ∨ i = .hchk) ∧ s.block.slot = .empty)) :
    ∃ t, exec i s = .next t := by
  cases i with
  | hdec =>
    obtain ⟨c, hc⟩ := BlockState.loaded_of_slot_ne_empty fun hs => h ⟨.inl rfl, hs⟩
    exact ⟨_, exec_hdec_loaded hc⟩
  | hchk =>
    obtain ⟨c, hc⟩ := BlockState.loaded_of_slot_ne_empty fun hs => h ⟨.inr rfl, hs⟩
    exact ⟨_, exec_hchk_loaded hc⟩
  | _ => exact ⟨_, rfl⟩

theorem exec_eq_refused_iff (i : Instr) (s : State) (r : Refusal) :
    exec i s = .refused r ↔ (i = .hdec ∨ i = .hchk) ∧ s.block.slot = .empty ∧ r = .emptySlot := by
  by_cases h : (i = .hdec ∨ i = .hchk) ∧ s.block.slot = .empty
  · simp [exec_of_empty h.1 h.2, h, eq_comm]
  · obtain ⟨t, ht⟩ := exec_completes h
    simp [ht, ← and_assoc, h]

/-- The step on a word that decodes performs its command on the state without that word (R3, R59). -/
theorem step_of_decode_ok {s : State} {w : Command} {rest : List Command} {i : Instr}
    (hc : s.commands = w :: rest) (hd : decode w = .ok i) : step s = exec i (s.setCommands rest) := by
  simp [step, hc, hd]

/-- Settles O10: a word is refused by the decoder, for its reason, or by its command, which `exec_eq_refused_iff`
says when. -/
theorem refusalsAreOnlyThoseListed : Obligations.RefusalsAreOnlyThoseListed := by
  refine ⟨fun _ _ ⟨hi, hs⟩ => exec_of_empty hi hs, fun _ _ => exec_completes, fun s w rest r hc => ?_⟩
  cases hd : decode w with
  | error e =>
    rw [step_of_decode_error hc hd]
    cases e <;> simp [refusalOf, eq_comm]
  | ok i =>
    rw [step_of_decode_ok hc hd, exec_eq_refused_iff]
    simp

/-! ## Bus commands -/

/-- Past the end of the ROM, which an empty slot has at 0, the bus is open (R175, R176). -/
theorem BlockState.romByte_of_romSize_le {b : BlockState} {i : Nat} (h : b.romSize ≤ i) :
    b.romByte i = Config.openBus := by
  cases hs : b.slot with
  | empty => exact romByte_of_empty hs i
  | loaded c => exact romByte_of_ge hs (romSize_of_loaded hs ▸ h)

/-- Past the end of the cartridge RAM, which an empty slot has at 0, the bus is open (R180). -/
theorem BlockState.ramByte_of_ramSize_le {b : BlockState} {o : Nat} (h : b.ramSize ≤ o) :
    b.ramByte o = Config.openBus := by
  cases hs : b.slot with
  | empty => exact ramByte_of_empty hs o
  | loaded c => exact ramByte_of_ge hs (ramSize_of_loaded hs ▸ h)

/-- The addresses that reach no cell of the block (R196): past the end of a cartridge buffer, in the unusable range and
in the I/O region. -/
theorem cell_eq_none_iff (b : BlockState) (a : Addr) :
    cell b a = none ↔
      ((region a = .rom0 ∨ region a = .romX) ∧ b.romSize ≤ a.toNat) ∨
      (region a = .eram ∧ b.ramSize ≤ a.toNat - 0xA000) ∨ region a = .unusable ∨ region a = .io := by
  cases h : region a <;> simp [cell, storageIndex, h]

/-- A read with neither storage nor the delegate behind it gives the open bus or the unusable range's byte. -/
theorem busRead_fst_of_cell_eq_none {b : BlockState} {a : Addr} (io : IoState) (hc : cell b a = none)
    (hio : region a ≠ .io) : (busRead b io a).1 = Config.openBus ∨ (busRead b io a).1 = Config.unusableRead := by
  rcases (cell_eq_none_iff b a).mp hc with ⟨hr, hsize⟩ | ⟨hr, hsize⟩ | hr | hr
  · rw [busRead_of_rom b io hr]
    exact .inl (BlockState.romByte_of_romSize_le hsize)
  · rw [busRead_of_eram b io hr]
    exact .inl (BlockState.ramByte_of_ramSize_le hsize)
  · rw [busRead_of_unusable b io hr]
    exact .inr rfl
  · exact absurd hr hio

/-- Settles O25: the equations of RD and WR have no failing case, and the fallback byte is that of
`busRead_fst_of_cell_eq_none`. -/
theorem busCommandsNeverFail : Obligations.BusCommandsNeverFail := fun s a =>
  ⟨⟨_, _, exec_rd a s, rfl, busRead_fst_of_cell_eq_none s.io⟩, fun v => ⟨_, exec_wr a v s, rfl⟩⟩

end Sys2Proof.Machine
end

section
/-! PROOFS. The command word in both directions (30_encoding.md R70–R78): the encoder fills the fields the decoder
reads, a row of spec/opcode_table.json is a condition on the three fields, and a line of assembly that fits is a command. -/

namespace Sys2Proof

/-! ## The fields of a command's word -/

theorem opField_encode (i : Instr) : opField (encode i) = i.mnemonic.op := opField_word _ _ _
theorem fieldA_encode (i : Instr) : fieldA (encode i) = i.wordA := fieldA_word _ _ _
theorem fieldB_encode (i : Instr) : fieldB (encode i) = i.wordB := fieldB_word _ _ _

/-- The encoder leaves the must-be-zero bits of `A` clear (R72, R78). -/
theorem wordA_and_zeroA (i : Instr) : i.wordA &&& i.mnemonic.zeroA = 0 := by
  cases i <;> simp [Instr.wordA, Instr.mnemonic, Mnemonic.zeroA]

/-- The encoder leaves the must-be-zero bits of `B` clear (R72, R78). -/
theorem wordB_and_zeroB (i : Instr) : i.wordB &&& i.mnemonic.zeroB = 0 := by
  cases i with
  | pname license isOld => cases isOld <;> simp [Instr.wordB, Instr.mnemonic, Mnemonic.zeroB]
  | _ => simp [Instr.wordB, Instr.mnemonic, Mnemonic.zeroB]

/-- A row reads back from the operand fields the operands the encoder put there. -/
theorem withOperands_words (i : Instr) : i.mnemonic.withOperands i.wordA i.wordB = i := by
  cases i with
  | pname license isOld => cases isOld <;> simp [Instr.wordA, Instr.wordB, Instr.mnemonic, Mnemonic.withOperands]
  | _ => simp [Instr.wordA, Instr.wordB, Instr.mnemonic, Mnemonic.withOperands]

@[simp] theorem mnemonic_withOperands (m : Mnemonic) (a b : Word) : (m.withOperands a b).mnemonic = m := by
  cases m <;> rfl

/-- A word decodes exactly when it has a row's code and clear must-be-zero bits, and then to the row's command. -/
theorem decode_eq_ok_iff (w : Command) (i : Instr) :
    decode w = .ok i ↔ ∃ m : Mnemonic, opField w = m.op ∧ fieldA w &&& m.zeroA = 0 ∧ fieldB w &&& m.zeroB = 0 ∧
      m.withOperands (fieldA w) (fieldB w) = i := by
  constructor
  · intro h
    unfold decode at h
    split at h
    · cases h
    · rename_i m hm
      split at h
      · rename_i hz
        exact ⟨m, (op_of_mnemonicOf hm).symm, hz.1, hz.2, Except.ok.inj h⟩
      · cases h
  · rintro ⟨m, hop, ha, hb, rfl⟩
    simp [decode, hop, ha, hb]

/-! ## An operand field whose must-be-zero bits are clear -/

/-- Where a mask has a bit set, a field that is 0 under the mask has it clear. -/
theorem getLsbD_of_and_eq_zero {f m : Word} (h : f &&& m = 0) {k : Nat} (hm : m.getLsbD k = true) :
    f.getLsbD k = false := by
  simpa [hm] using congrArg (fun x : Word => x.getLsbD k) h

/-- A field with a clear high byte is its low byte. -/
theorem setWidth_lowByte {f : Word} (h : f &&& 0xFF00 = 0) : (lowByte f).setWidth 16 = f := by
  have hmask : ∀ k < 16, 8 ≤ k → (0xFF00 : Word).getLsbD k = true := by decide
  refine BitVec.eq_of_getLsbD_eq fun k hk => ?_
  rcases Nat.lt_or_ge k 8 with h8 | h8
  · simp [lowByte, hk, h8]
  · simp [lowByte, h8.not_gt, getLsbD_of_and_eq_zero h (hmask k hk h8)]

/-- A field with bits 15 to 1 clear is its bit 0. -/
theorem ite_getLsbD_zero {f : Word} (h : f &&& 0xFFFE = 0) : (if f.getLsbD 0 then 1 else 0) = f := by
  have hmask : ∀ k < 16, k ≠ 0 → (0xFFFE : Word).getLsbD k = true := by decide
  refine BitVec.eq_of_getLsbD_eq fun k hk => ?_
  rcases eq_or_ne k 0 with rfl | h0
  · cases f.getLsbD 0 <;> rfl
  · rw [getLsbD_of_and_eq_zero h (hmask k hk h0)]
    cases f.getLsbD 0 <;> simp [h0]

theorem wordA_withOperands {m : Mnemonic} {a : Word} (b : Word) (h : a &&& m.zeroA = 0) :
    (m.withOperands a b).wordA = a := by
  cases m with
  | rd | wr | pname | hcadd16 | cadd16 | hcsub16 | csub16 => rfl
  | cload | cunload | hdec | hchk => exact (BitVec.and_allOnes ▸ h).symm
  | romsz | ramsz | tname | hcadd8 | cadd8 | hcsub8 | csub8 | sext8 => exact setWidth_lowByte h

theorem wordB_withOperands {m : Mnemonic} (a : Word) {b : Word} (h : b &&& m.zeroB = 0) :
    (m.withOperands a b).wordB = b := by
  cases m with
  | hcadd16 | cadd16 | hcsub16 | csub16 => rfl
  | wr | hcadd8 | cadd8 | hcsub8 | csub8 => exact setWidth_lowByte h
  | pname => exact ite_getLsbD_zero h
  | rd | cload | cunload | hdec | hchk | romsz | ramsz | tname | sext8 => exact (BitVec.and_allOnes ▸ h).symm

/-! ## The rows of spec/opcode_table.json -/

/-- R72 gives each mnemonic a code of its own. -/
theorem op_injective {m n : Mnemonic} (h : m.op = n.op) : m = n := by
  simpa using congrArg mnemonicOf h

/-- Each mnemonic has one row. -/
theorem row_eq_of_mnemonic_eq : ∀ r₁ ∈ opcodeTable, ∀ r₂ ∈ opcodeTable, r₁.mnemonic = r₂.mnemonic → r₁ = r₂ := by
  decide

/-- A word matches a row exactly when it has the row's code and its must-be-zero bits are clear. -/
theorem and_mask_eq_pattern_iff {r : OpcodeRow} (hr : r ∈ opcodeTable) (w : Command) :
    w &&& r.mask = r.pattern ↔
      opField w = r.mnemonic.op ∧ fieldA w &&& r.mnemonic.zeroA = 0 ∧ fieldB w &&& r.mnemonic.zeroB = 0 := by
  refine ⟨fun h => ?_, fun ⟨hop, ha, hb⟩ => and_mask_eq_pattern hr hop ha hb⟩
  obtain ⟨hp, hm⟩ := row_layout r hr
  rw [hp, hm, ← word_of_fields w, word_and, show (0xFF : Byte) = BitVec.allOnes 8 from rfl, BitVec.and_allOnes] at h
  exact ⟨by simpa using congrArg opField h, by simpa using congrArg fieldA h, by simpa using congrArg fieldB h⟩

/-- The word of a command matches the row of its mnemonic. -/
theorem encode_matches_row (i : Instr) :
    ∃ r ∈ opcodeTable, r.mnemonic = i.mnemonic ∧ encode i &&& r.mask = r.pattern := by
  obtain ⟨r, hr, hm⟩ := exists_row i.mnemonic
  refine ⟨r, hr, hm, (and_mask_eq_pattern_iff hr _).mpr ?_⟩
  rw [hm, opField_encode, fieldA_encode, fieldB_encode]
  exact ⟨rfl, wordA_and_zeroA i, wordB_and_zeroB i⟩

/-- A word that decodes matches the row of its command's mnemonic. -/
theorem decoded_matches_row {w : Command} {i : Instr} (h : decode w = .ok i) :
    ∃ r ∈ opcodeTable, r.mnemonic = i.mnemonic ∧ w &&& r.mask = r.pattern := by
  obtain ⟨m, hop, ha, hb, rfl⟩ := (decode_eq_ok_iff w i).mp h
  obtain ⟨r, hr, rfl⟩ := exists_row m
  exact ⟨r, hr, by simp, (and_mask_eq_pattern_iff hr w).mpr ⟨hop, ha, hb⟩⟩

/-! ## Lines of assembly -/

/-- A number fits a 16-bit field exactly when it is the value of a word. -/
theorem fits_word16_iff (n : Nat) : OperandField.word16.fits n = true ↔ ∃ a : Word, n = a.toNat := by
  refine ⟨fun h => ⟨BitVec.ofNat 16 n, ?_⟩, ?_⟩
  · have hn : n ≤ 0xFFFF := by simpa [OperandField.fits] using h
    rw [BitVec.toNat_ofNat, Nat.mod_eq_of_lt (by omega)]
  · rintro ⟨a, rfl⟩
    have := a.isLt
    simp only [OperandField.fits, decide_eq_true_eq]
    omega

/-- A number fits an 8-bit field exactly when it is the value of a byte. -/
theorem fits_byte_iff (n : Nat) : OperandField.byte.fits n = true ↔ ∃ v : Byte, n = v.toNat := by
  refine ⟨fun h => ⟨BitVec.ofNat 8 n, ?_⟩, ?_⟩
  · have hn : n ≤ 0xFF := by simpa [OperandField.fits] using h
    rw [BitVec.toNat_ofNat, Nat.mod_eq_of_lt (by omega)]
  · rintro ⟨v, rfl⟩
    have := v.isLt
    simp only [OperandField.fits, decide_eq_true_eq]
    omega

/-- A number fits the one-bit field exactly when it is 0 or 1. -/
theorem fits_bit_iff (n : Nat) : OperandField.bit.fits n = true ↔ ∃ o : Bool, n = if o then 1 else 0 := by
  simp only [OperandField.fits, decide_eq_true_eq, Bool.exists_bool]
  simp
  omega

theorem operandsFit_nil_iff (ns : List Nat) : operandsFit [] ns = true ↔ ns = [] := by
  cases ns <;> simp [operandsFit]

theorem operandsFit_cons_iff (f : OperandField) (fs : List OperandField) (ns : List Nat) :
    operandsFit (f :: fs) ns = true ↔ ∃ n ns', ns = n :: ns' ∧ f.fits n = true ∧ operandsFit fs ns' = true := by
  cases ns <;> simp [operandsFit]

/-- Operands that fit the fields of a row are those of a command of that row. -/
theorem exists_instr_of_operandsFit {m : Mnemonic} {ns : List Nat} (h : operandsFit m.fields ns = true) :
    ∃ i : Instr, i.mnemonic = m ∧ i.operands = ns := by
  suffices ∃ a b, (m.withOperands a b).operands = ns by
    obtain ⟨a, b, hns⟩ := this
    exact ⟨_, mnemonic_withOperands m a b, hns⟩
  cases m <;> simp only [Mnemonic.fields, operandsFit_nil_iff, operandsFit_cons_iff, fits_word16_iff,
    fits_byte_iff, fits_bit_iff] at h
  case cload | cunload | hdec | hchk => exact ⟨0, 0, h.symm⟩
  case rd =>
    obtain ⟨_, _, rfl, ⟨a, rfl⟩, rfl⟩ := h
    exact ⟨a, 0, rfl⟩
  case wr =>
    obtain ⟨_, _, rfl, ⟨a, rfl⟩, _, _, rfl, ⟨v, rfl⟩, rfl⟩ := h
    exact ⟨a, v.setWidth 16, by simp [Mnemonic.withOperands, Instr.operands]⟩
  case pname =>
    obtain ⟨_, _, rfl, ⟨l, rfl⟩, _, _, rfl, ⟨o, rfl⟩, rfl⟩ := h
    exact ⟨l, if o then 1 else 0, by cases o <;> simp [Mnemonic.withOperands, Instr.operands]⟩
  case romsz | ramsz | tname | sext8 =>
    obtain ⟨_, _, rfl, ⟨c, rfl⟩, rfl⟩ := h
    exact ⟨c.setWidth 16, 0, by simp [Mnemonic.withOperands, Instr.operands]⟩
  case hcadd8 | cadd8 | hcsub8 | csub8 =>
    obtain ⟨_, _, rfl, ⟨a, rfl⟩, _, _, rfl, ⟨b, rfl⟩, rfl⟩ := h
    exact ⟨a.setWidth 16, b.setWidth 16, by simp [Mnemonic.withOperands, Instr.operands]⟩
  case hcadd16 | cadd16 | hcsub16 | csub16 =>
    obtain ⟨_, _, rfl, ⟨a, rfl⟩, _, _, rfl, ⟨b, rfl⟩, rfl⟩ := h
    exact ⟨a, b, rfl⟩

/-- A byte or a word fits its field, and so does the bit of `is_old`. -/
@[simp] theorem fits_word16_toNat (a : Word) : OperandField.word16.fits a.toNat = true :=
  (fits_word16_iff _).mpr ⟨a, rfl⟩
@[simp] theorem fits_byte_toNat (v : Byte) : OperandField.byte.fits v.toNat = true :=
  (fits_byte_iff _).mpr ⟨v, rfl⟩
@[simp] theorem fits_bit_ite (o : Bool) : OperandField.bit.fits (if o then 1 else 0) = true :=
  (fits_bit_iff _).mpr ⟨o, rfl⟩

/-- The operands of a command fit the fields of its row (R73). -/
theorem operandsFit_operands (i : Instr) : operandsFit i.mnemonic.fields i.operands = true := by
  cases i <;> simp [Instr.mnemonic, Mnemonic.fields, Instr.operands, operandsFit]

/-- The line of a command assembles to that command. -/
theorem toInstr_operands (i : Instr) : (Line.mk i.mnemonic i.operands).toInstr = some i := by
  have hwf : (Line.mk i.mnemonic i.operands).wf = true := operandsFit_operands i
  rw [Line.toInstr, if_pos hwf]
  cases i with
  | pname license isOld => cases isOld <;> simp [Instr.mnemonic, Instr.operands]
  | _ => simp [Instr.mnemonic, Instr.operands]

/-- Settles O1: the fields of a command's word are those of its row, and the row reads its operands back. -/
theorem decodeOfEncodeIsTheCommand : Obligations.DecodeOfEncodeIsTheCommand := by
  intro i
  refine (decode_eq_ok_iff _ i).mpr ⟨i.mnemonic, opField_encode i, ?_⟩
  rw [fieldA_encode, fieldB_encode]
  exact ⟨wordA_and_zeroA i, wordB_and_zeroB i, withOperands_words i⟩

/-- Settles O2: with the must-be-zero bits clear, encoding gives back each of the three fields. -/
theorem decodedWordIsTheCommandsWord : Obligations.DecodedWordIsTheCommandsWord := by
  intro w i h
  obtain ⟨m, hop, ha, hb, rfl⟩ := (decode_eq_ok_iff w i).mp h
  rw [encode, mnemonic_withOperands, wordA_withOperands _ ha, wordB_withOperands _ hb, ← hop, word_of_fields]

/-- Settles O3: a row is its code and its must-be-zero columns; codes differ between rows, and the decoder asks for the
same. -/
theorem decoderAgreesWithOpcodeTable : Obligations.DecoderAgreesWithOpcodeTable := by
  refine fun w => ⟨fun r₁ hr₁ r₂ hr₂ h₁ h₂ => ?_, ⟨fun ⟨i, h⟩ => ?_, fun ⟨r, hr, h⟩ => ?_⟩,
    fun i => decoded_matches_row⟩
  · have hop₁ := ((and_mask_eq_pattern_iff hr₁ w).mp h₁).1
    have hop₂ := ((and_mask_eq_pattern_iff hr₂ w).mp h₂).1
    exact row_eq_of_mnemonic_eq r₁ hr₁ r₂ hr₂ (op_injective (hop₁.symm.trans hop₂))
  · obtain ⟨r, hr, -, hmatch⟩ := decoded_matches_row h
    exact ⟨r, hr, hmatch⟩
  · obtain ⟨hop, ha, hb⟩ := (and_mask_eq_pattern_iff hr w).mp h
    exact ⟨_, (decode_eq_ok_iff w _).mpr ⟨r.mnemonic, hop, ha, hb, rfl⟩⟩

/-- Settles O6: the written words evaluate. -/
theorem writtenWordsDecode : Obligations.WrittenWordsDecode := by
  unfold Obligations.WrittenWordsDecode
  decide

/-- Settles O7: a line that fits is the line of a command, and the line of a command assembles to it. -/
theorem lineAssemblesExactlyWhenOperandsFit : Obligations.LineAssemblesExactlyWhenOperandsFit := by
  refine ⟨fun ⟨m, ns⟩ h => ?_, fun l h => ?_, toInstr_operands⟩
  · obtain ⟨i, rfl, rfl⟩ := exists_instr_of_operandsFit h
    exact ⟨i, toInstr_operands i, rfl, rfl, encode_matches_row i⟩
  · simp [Line.toInstr, h]

end Sys2Proof

namespace Sys2Proof.Machine

/-- The table word of a command's word is that word. -/
theorem tableWord_toNat (w : Command) : tableWord 40 w.toNat = w := by
  rw [tableWord, Nat.mod_eq_of_lt w.isLt, BitVec.ofNat_toNat, BitVec.setWidth_eq]

/-- Settles O8: the step's equation on a word that decodes. -/
theorem stepPerformsTheDecodedCommand : Obligations.StepPerformsTheDecodedCommand :=
  fun _ _ _ _ => step_of_decode_ok

/-- Settles O9: the issued word is at the head of the port and decodes to its command (O1). -/
theorem issuedCommandIsPerformedNext : Obligations.IssuedCommandIsPerformedNext := by
  intro s i
  rw [State.withFetchWord, tableWord_toNat]
  exact step_of_decode_ok rfl (decodeOfEncodeIsTheCommand i)

end Sys2Proof.Machine
end

section
/-! PROOFS. Byte arrays as data (log entry 6): a canonical array is its contents, so that writing a byte twice is
writing it once, and every input of a CLOAD is a draw (41_cartridge_loader.md R101). -/

namespace Sys2Proof.Machine

/-! ## Canonical arrays -/

/-- A canonical list: its first index is in range and listed with a byte other than the unlisted one, and its rest is
canonical from the next index up. -/
theorem cellsWf_cons_iff {lo hi i : Nat} {v : Byte} {cs : List Host.Cell} :
    cellsWf lo hi ((i, v) :: cs) = true ↔ lo ≤ i ∧ i < hi ∧ v ≠ Memory.unlisted ∧ cellsWf (i + 1) hi cs = true := by
  simp [cellsWf, and_assoc]

theorem getCell_head (i : Nat) (v : Byte) (cs : List Host.Cell) : getCell i ((i, v) :: cs) = v := by
  simp [getCell]

theorem getCell_of_head_lt {i j : Nat} (h : i < j) (v : Byte) (cs : List Host.Cell) :
    getCell j ((i, v) :: cs) = getCell j cs := by
  simp [getCell, h]

/-- The first index of a canonical list is the first that does not read as unlisted. -/
theorem head_le_of_getCell_ne {lo hi i j : Nat} {v : Byte} {cs : List Host.Cell}
    (hc : cellsWf lo hi ((i, v) :: cs) = true) (h : getCell j ((i, v) :: cs) ≠ Memory.unlisted) : i ≤ j := by
  by_contra hlt
  obtain ⟨-, hhi, hv, hcs⟩ := cellsWf_cons_iff.mp hc
  exact h (getCell_below (lo := i) (by omega) (cellsWf_cons_iff.mpr ⟨le_rfl, hhi, hv, hcs⟩))

/-- Canonical lists with the same contents are the same list. -/
theorem cells_eq_of_getCell_eq {lo lo' hi hi' : Nat} : ∀ {cs ds : List Host.Cell}, cellsWf lo hi cs = true →
    cellsWf lo' hi' ds = true → (∀ i, getCell i cs = getCell i ds) → cs = ds
  | [], [], _, _, _ => rfl
  | [], (j, w) :: ds, _, hd, h => by
    have hw := (h j).trans (getCell_head j w ds)
    exact absurd hw.symm (cellsWf_cons_iff.mp hd).2.2.1
  | (i, v) :: cs, [], hc, _, h => by
    have hv := (h i).symm.trans (getCell_head i v cs)
    exact absurd hv.symm (cellsWf_cons_iff.mp hc).2.2.1
  | (i, v) :: cs, (j, w) :: ds, hc, hd, h => by
    obtain ⟨-, -, hv, hcs⟩ := cellsWf_cons_iff.mp hc
    obtain ⟨-, -, hw, hds⟩ := cellsWf_cons_iff.mp hd
    have hji : j ≤ i := head_le_of_getCell_ne hd (by rwa [← h i, getCell_head])
    have hij : i ≤ j := head_le_of_getCell_ne hc (by rwa [h j, getCell_head])
    obtain rfl := Nat.le_antisymm hij hji
    obtain rfl : v = w := by simpa only [getCell_head] using h i
    have htail : cs = ds := cells_eq_of_getCell_eq hcs hds fun k => by
      rcases Nat.lt_or_ge i k with hk | hk
      · simpa only [getCell_of_head_lt hk] using h k
      · rw [getCell_below (Nat.lt_succ_of_le hk) hcs, getCell_below (Nat.lt_succ_of_le hk) hds]
    rw [htail]

/-- Settles O55: canonical lists with the same contents are the same list. -/
theorem equalContentsAreEqualArrays : Obligations.EqualContentsAreEqualArrays := by
  rintro ⟨_, _⟩ ⟨_, _⟩ hm hn rfl h
  exact congrArg (Memory.mk _) (cells_eq_of_getCell_eq hm hn h)

/-- Writing a byte twice is writing it once. -/
theorem Memory.set_set {m : Memory} (hm : m.wf = true) {i : Nat} (hi : i < m.size) (v : Byte) :
    (m.set i v).set i v = m.set i v := by
  have hm' := Memory.set_wf v hm hi
  refine equalContentsAreEqualArrays _ _ (Memory.set_wf v hm' hi) hm' rfl fun j => ?_
  rw [Memory.get_set hm', Memory.get_set hm]
  split <;> rfl

/-- A canonical array is the array of its bytes. -/
theorem Memory.ofBytes_slice {m : Memory} (hm : m.wf = true) : Memory.ofBytes (m.slice 0 m.size) = m := by
  refine equalContentsAreEqualArrays _ _ (Memory.ofBytes_wf _) hm (Memory.slice_length _ _ _) fun i => ?_
  rw [Memory.ofBytes_get]
  rcases Nat.lt_or_ge i m.size with hi | hi
  · rw [Memory.slice_getD _ _ _ _ hi, Nat.zero_add]
  · rw [Memory.get_above hm hi, List.getD_eq_default _ _ (by simpa using hi)]

/-! ## What a CLOAD consumes -/

/-- The draw that gives an input of R101: the bytes that arrive, and how many of the file's do not. -/
def drawOfInput (inp : LoadInput) : Config.LoadDraw :=
  match inp.src with
  | .openFail => ⟨false, [], 0, inp.romAllocOk, inp.ramAllocOk⟩
  | .file length bytes =>
    ⟨true, bytes.slice 0 bytes.size, length - bytes.size, inp.romAllocOk, inp.ramAllocOk⟩

theorem inputOfDraw_drawOfInput {inp : LoadInput} (h : inp.src.wf = true) : inputOfDraw (drawOfInput inp) = inp := by
  obtain ⟨src, rom, ram⟩ := inp
  cases src with
  | openFail => rfl
  | file length bytes =>
    obtain ⟨hwf, hsize⟩ : bytes.wf = true ∧ bytes.size ≤ length := by simpa [ImageSource.wf] using h
    simp [inputOfDraw, drawOfInput, Memory.ofBytes_slice hwf, hsize]

/-- Settles O31: a presented input is consumed first, and `drawOfInput` is the draw of an input. -/
theorem loadInputIsPresentedOrFree : Obligations.LoadInputIsPresentedOrFree := by
  refine ⟨fun s inp rest h => ?_, fun s h => ?_, fun inp => ⟨fun h => ⟨_, inputOfDraw_drawOfInput h⟩, ?_⟩⟩
  · simp [State.nextLoad, State.takeLoad, h]
  · simp [State.nextLoad, State.takeLoad, h]
  · rintro ⟨d, rfl⟩
    exact inputOfDraw_wf d

end Sys2Proof.Machine
end

section
/-! PROOFS. Storage cells (43_bus_dispatcher.md R196, section 4; 30_encoding.md section 6): the comparator as bit
patterns, the addresses that reach a cell, what a bus write does to each field of the block, and with it the one rule of
a read after a write, cell by cell. -/

namespace Sys2Proof.Machine

/-! ## The comparator as bit patterns -/

/-- A bit field of an address, as a number. -/
theorem extractLsb'_eq_iff (a : Addr) (lo : Nat) {n : Nat} (c : BitVec n) :
    a.extractLsb' lo n = c ↔ a.toNat / 2 ^ lo % 2 ^ n = c.toNat := by
  rw [← BitVec.toNat_inj, BitVec.extractLsb'_toNat, Nat.shiftRight_eq_div_pow]

/-- In a region with an array of its own (or the echo) the storage index is the offset from the region's base. -/
theorem storageIndex_eq_offset {a : Addr} {k : RegionKind} (h : region a = k)
    (hk : k ∈ [.vram, .eram, .wram, .echo, .oam, .hram]) : storageIndex a = a.toNat - k.first := by
  subst h
  cases hr : region a <;> simp [hr, storageIndex, RegionKind.first] at hk ⊢

/-- Where a region starts at a multiple of `2 ^ n` and is no longer than that, the low bits are the storage index. -/
theorem storageIndex_eq_lowBits {a : Addr} {k : RegionKind} {n : Nat} (h : region a = k)
    (hk : k ∈ [.vram, .eram, .wram, .echo, .oam, .hram]) (hfirst : 2 ^ n ∣ k.first) (hlast : k.last < k.first + 2 ^ n) :
    storageIndex a = (a.extractLsb' 0 n).toNat := by
  obtain ⟨lo, hi⟩ := (region_eq_iff a k).mp h
  rw [storageIndex_eq_offset h hk, toNat_extractLsb'_zero, ← Nat.mod_eq_of_lt (show a.toNat - k.first < 2 ^ n by omega)]
  exact (Nat.modEq_iff_dvd' (Nat.sub_le _ _)).mpr (by rwa [Nat.sub_sub_self lo])

/-- Settles O12: a bit pattern of the high bits is a range of addresses, and the low bits are the offset in it. -/
theorem regionIsSelectedByBitPatterns : Obligations.RegionIsSelectedByBitPatterns := by
  intro a
  have hlt := a.isLt
  refine ⟨?_, ?_, ?_, ?_, ?_, ?_, ?_, ?_, ?_, ?_, ?ie, ?rom, ?banks, ?oam, ?hram⟩
  case ie => exact ⟨fun h => BitVec.eq_of_toNat_eq (by simpa [h] using region_bounds a), region_ie⟩
  case rom => rintro (h | h) <;> simp [storageIndex, h]
  case banks =>
    rintro (h | h | h | h) <;> exact storageIndex_eq_lowBits h (by decide) (by decide) (by decide)
  case oam => exact fun h => storageIndex_eq_lowBits h (by decide) (by decide) (by decide)
  case hram => exact fun h => storageIndex_eq_lowBits h (by decide) (by decide) (by decide)
  all_goals
    simp only [region_eq_iff, RegionKind.first, RegionKind.last, extractLsb'_eq_iff, ne_eq, toNat_extractLsb'_zero,
      BitVec.reduceToNat, Nat.reducePow]
    omega

/-! ## The addresses that reach a cell -/

/-- The cell is the one an address reaches (R196), by the region of the address and its offset there. -/
def StorageCell.ReachedFrom (b : BlockState) (a : Addr) : StorageCell → Prop
  | .rom i => (region a = .rom0 ∨ region a = .romX) ∧ i = a.toNat ∧ i < b.romSize
  | .vram i => region a = .vram ∧ i = a.toNat - 0x8000
  | .ram o => region a = .eram ∧ o = a.toNat - 0xA000 ∧ o < b.ramSize
  | .wram i => (region a = .wram ∧ i = a.toNat - 0xC000) ∨ (region a = .echo ∧ i = a.toNat - 0xE000)
  | .oam i => region a = .oam ∧ i = a.toNat - 0xFE00
  | .hram i => region a = .hram ∧ i = a.toNat - 0xFF80
  | .ie => region a = .ie

theorem cell_eq_some_iff (b : BlockState) (a : Addr) (k : StorageCell) : cell b a = some k ↔ k.ReachedFrom b a := by
  cases hr : region a <;> cases k <;>
    simp [cell, storageIndex, StorageCell.ReachedFrom, hr, eq_comm, and_comm]
  case rom0.rom | romX.rom | eram.ram => exact fun h => h ▸ Iff.rfl

/-- An address in 0xC000–0xDDFF and the one 0x2000 above it, in the echo, reach the same cell. -/
theorem cell_of_echo {a a' : Addr} (b : BlockState) (lo : 0xC000 ≤ a.toNat) (hi : a.toNat ≤ 0xDDFF)
    (h : a'.toNat = a.toNat + 0x2000) : ∃ k, cell b a = some k ∧ cell b a' = some k := by
  refine ⟨.wram (a.toNat - 0xC000), ?_, ?_⟩ <;> rw [cell_eq_some_iff]
  · exact .inl ⟨region_wram lo (by omega), rfl⟩
  · exact .inr ⟨region_echo (by omega) (by omega), by omega⟩

/-- Settles O13: the offset and the region give the address, and only a cell of `wram` has two regions. -/
theorem onlyTheEchoAliases : Obligations.OnlyTheEchoAliases := by
  refine fun b a a' hne => ⟨fun ⟨k, h, h'⟩ => ?_, fun h => ?_⟩
  · have hne : a.toNat ≠ a'.toNat := mt BitVec.eq_of_toNat_eq hne
    rw [cell_eq_some_iff] at h h'
    cases k <;>
      simp only [StorageCell.ReachedFrom, region_eq_iff, RegionKind.first, RegionKind.last] at h h' <;> omega
  · obtain ⟨lo, hi, h⟩ | ⟨lo, hi, h⟩ := h
    · exact cell_of_echo b lo hi h
    · obtain ⟨k, hk', hk⟩ := cell_of_echo b lo hi h
      exact ⟨k, hk, hk'⟩

/-! ## The byte of a cell -/

/-- The byte a cell holds. -/
def BlockState.cellByte (b : BlockState) : StorageCell → Byte
  | .rom i => b.romByte i
  | .vram i => b.vram.get i
  | .ram o => b.ramByte o
  | .wram i => b.wram.get i
  | .oam i => b.oam.get i
  | .hram i => b.hram.get i
  | .ie => b.ie

/-- A read of an address that reaches a cell gives the byte of the cell, and does not call the delegate. -/
theorem busRead_of_cell {b : BlockState} {a : Addr} {k : StorageCell} (io : IoState) (h : cell b a = some k) :
    busRead b io a = (b.cellByte k, io) := by
  rw [cell_eq_some_iff] at h
  cases k <;> simp only [StorageCell.ReachedFrom] at h <;> simp only [BlockState.cellByte]
  case rom => obtain ⟨hr, hi, -⟩ := h; rw [hi, busRead_of_rom b io hr]
  case vram => rw [h.2, busRead_of_vram b io h.1]
  case ram => obtain ⟨hr, ho, -⟩ := h; rw [ho, busRead_of_eram b io hr]
  case wram =>
    obtain ⟨hr, hi⟩ | ⟨hr, hi⟩ := h
    · rw [hi, busRead_of_wram b io hr]
    · rw [hi, busRead_of_echo b io hr]
  case oam => rw [h.2, busRead_of_oam b io h.1]
  case hram => rw [h.2, busRead_of_hram b io h.1]
  case ie => rw [busRead_of_ie b io h]

/-- A read with neither storage nor the delegate behind it gives the fixed byte of its region. -/
theorem busRead_of_cell_eq_none {b : BlockState} {a : Addr} (io : IoState) (hc : cell b a = none)
    (hio : region a ≠ .io) :
    busRead b io a = (if region a = .unusable then Config.unusableRead else Config.openBus, io) := by
  rcases (cell_eq_none_iff b a).mp hc with ⟨hr, hsize⟩ | ⟨hr, hsize⟩ | hr | hr
  · rw [busRead_of_rom b io hr, BlockState.romByte_of_romSize_le hsize, if_neg (by rcases hr with h | h <;> simp [h])]
  · rw [busRead_of_eram b io hr, BlockState.ramByte_of_ramSize_le hsize, if_neg (by simp [hr])]
  · rw [busRead_of_unusable b io hr, if_pos hr]
  · exact absurd hr hio

/-! ## What a bus write does to each field of the block -/

section
variable (b : BlockState) (a : Addr) (v : Byte)

theorem blockWrite_vram : (blockWrite b a v).vram =
    if region a = .vram then b.vram.set (a.toNat - 0x8000) v else b.vram := by
  cases hr : region a <;> simp [blockWrite, storageIndex, hr]
theorem blockWrite_wram : (blockWrite b a v).wram =
    if region a = .wram then b.wram.set (a.toNat - 0xC000) v
    else if region a = .echo then b.wram.set (a.toNat - 0xE000) v else b.wram := by
  cases hr : region a <;> simp [blockWrite, storageIndex, hr]
theorem blockWrite_oam : (blockWrite b a v).oam =
    if region a = .oam then b.oam.set (a.toNat - 0xFE00) v else b.oam := by
  cases hr : region a <;> simp [blockWrite, storageIndex, hr]
theorem blockWrite_hram : (blockWrite b a v).hram =
    if region a = .hram then b.hram.set (a.toNat - 0xFF80) v else b.hram := by
  cases hr : region a <;> simp [blockWrite, storageIndex, hr]
theorem blockWrite_ie : (blockWrite b a v).ie = if region a = .ie then v else b.ie := by
  cases hr : region a <;> simp [blockWrite, hr]

@[simp] theorem blockWrite_vram_size : (blockWrite b a v).vram.size = b.vram.size := by
  rw [blockWrite_vram]; split <;> rfl
@[simp] theorem blockWrite_wram_size : (blockWrite b a v).wram.size = b.wram.size := by
  rw [blockWrite_wram]; split <;> [rfl; (split <;> rfl)]
@[simp] theorem blockWrite_oam_size : (blockWrite b a v).oam.size = b.oam.size := by
  rw [blockWrite_oam]; split <;> rfl
@[simp] theorem blockWrite_hram_size : (blockWrite b a v).hram.size = b.hram.size := by
  rw [blockWrite_hram]; split <;> rfl

/-- Everything a bus write does to the slot: one byte of a loaded cartridge's RAM, where the address reaches it, else
nothing (R181). -/
theorem blockWrite_slot_cases :
    (∃ c o, b.slot = .loaded c ∧ cell b a = some (.ram o) ∧
      (blockWrite b a v).slot = .loaded { c with ram := c.ram.set o v }) ∨
    ((∀ o, cell b a ≠ some (.ram o)) ∧ (blockWrite b a v).slot = b.slot) := by
  by_cases hr : region a = .eram
  · rw [blockWrite_of_eram b v hr]
    cases hs : b.slot with
    | empty =>
      refine .inr ⟨fun o h => ?_, by rw [BlockState.setRam_of_empty hs, hs]⟩
      obtain ⟨-, -, ho⟩ := (cell_eq_some_iff b a _).mp h
      simp [BlockState.ramSize_of_empty hs] at ho
    | loaded c =>
      rcases Nat.lt_or_ge (a.toNat - 0xA000) c.ram.size with ho | ho
      · refine .inl ⟨c, _, rfl, (cell_eq_some_iff b a _).mpr ⟨hr, rfl, ?_⟩, by rw [BlockState.setRam_of_lt hs ho]; rfl⟩
        rwa [BlockState.ramSize_of_loaded hs]
      · refine .inr ⟨fun o h => ?_, by rw [BlockState.setRam_of_ge hs ho, hs]⟩
        obtain ⟨-, ho', hlt⟩ := (cell_eq_some_iff b a _).mp h
        rw [BlockState.ramSize_of_loaded hs] at hlt
        omega
  · refine .inr ⟨fun o h => hr ((cell_eq_some_iff b a _).mp h).1, ?_⟩
    cases hr' : region a <;> simp [blockWrite, hr'] at hr ⊢

@[simp] theorem blockWrite_romByte (i : Nat) : (blockWrite b a v).romByte i = b.romByte i := by
  rcases blockWrite_slot_cases b a v with ⟨c, o, hs, -, h⟩ | ⟨-, h⟩ <;> simp [BlockState.romByte, *]
@[simp] theorem blockWrite_romSize : (blockWrite b a v).romSize = b.romSize := by
  rcases blockWrite_slot_cases b a v with ⟨c, o, hs, -, h⟩ | ⟨-, h⟩ <;> simp [BlockState.romSize, *]
@[simp] theorem blockWrite_ramSize : (blockWrite b a v).ramSize = b.ramSize := by
  rcases blockWrite_slot_cases b a v with ⟨c, o, hs, -, h⟩ | ⟨-, h⟩ <;> simp [BlockState.ramSize, *]

/-- A bus write does not change which cell an address reaches: both sizes stay. -/
@[simp] theorem cell_blockWrite (a' : Addr) : cell (blockWrite b a v) a' = cell b a' := by
  simp only [cell, blockWrite_romSize, blockWrite_ramSize]

end

/-! ## A read after a write, cell by cell -/

/-- A byte of the cartridge RAM after a bus write: the byte written, where the address reaches it (R180, R181). -/
theorem blockWrite_ramByte {b : BlockState} (hb : b.Inv) (a : Addr) (v : Byte) (o : Nat) :
    (blockWrite b a v).ramByte o = if cell b a = some (.ram o) then v else b.ramByte o := by
  rcases blockWrite_slot_cases b a v with ⟨c, o', hs, hc, h⟩ | ⟨hc, h⟩
  · obtain ⟨-, -, ho'⟩ := (cell_eq_some_iff b a _).mp hc
    rw [BlockState.ramSize_of_loaded hs] at ho'
    have hget := Memory.get_set (hb.cart c hs).ramWf o' o v
    rcases eq_or_ne o o' with rfl | hne
    · rw [if_pos hc, BlockState.ramByte_of_lt h ho', hget, if_pos rfl]
    · rw [if_neg (by simpa [hc] using hne.symm)]
      simp [BlockState.ramByte, h, hs, hget, hne]
  · rw [if_neg (hc o)]
    simp [BlockState.ramByte, h]

/-- A cell a bus write can store to: any but one of the ROM (R177). -/
def StorageCell.Writable (k : StorageCell) : Prop := ∀ i, k ≠ .rom i

/-- After a bus write the cell the address reaches holds the byte written, and every other cell what it held. -/
theorem cellByte_blockWrite {b : BlockState} (hb : b.Inv) (a : Addr) (v : Byte) {k : StorageCell}
    (hk : k.Writable) : (blockWrite b a v).cellByte k = if cell b a = some k then v else b.cellByte k := by
  cases k with
  | rom i => exact absurd rfl (hk i)
  | ram o => exact blockWrite_ramByte hb a v o
  | vram i =>
    simp only [BlockState.cellByte, cell_eq_some_iff, StorageCell.ReachedFrom, blockWrite_vram]
    by_cases hr : region a = .vram <;> simp [hr, Memory.get_set hb.vramWf]
  | wram i =>
    simp only [BlockState.cellByte, cell_eq_some_iff, StorageCell.ReachedFrom, blockWrite_wram]
    by_cases hr : region a = .wram
    · simp [hr, Memory.get_set hb.wramWf]
    · by_cases hr' : region a = .echo <;> simp [hr, hr', Memory.get_set hb.wramWf]
  | oam i =>
    simp only [BlockState.cellByte, cell_eq_some_iff, StorageCell.ReachedFrom, blockWrite_oam]
    by_cases hr : region a = .oam <;> simp [hr, Memory.get_set hb.oamWf]
  | hram i =>
    simp only [BlockState.cellByte, cell_eq_some_iff, StorageCell.ReachedFrom, blockWrite_hram]
    by_cases hr : region a = .hram <;> simp [hr, Memory.get_set hb.hramWf]
  | ie =>
    simp only [BlockState.cellByte, cell_eq_some_iff, StorageCell.ReachedFrom, blockWrite_ie]

/-- No bus write changes a cell of the ROM (R177). -/
theorem cellByte_rom_blockWrite (b : BlockState) (a : Addr) (v : Byte) (i : Nat) :
    (blockWrite b a v).cellByte (.rom i) = b.cellByte (.rom i) :=
  blockWrite_romByte b a v i

/-- A cell the address does not reach holds what it held before the write. -/
theorem cellByte_blockWrite_of_ne {b : BlockState} (hb : b.Inv) {a : Addr} (v : Byte) {k : StorageCell}
    (h : cell b a ≠ some k) : (blockWrite b a v).cellByte k = b.cellByte k := by
  by_cases hk : k.Writable
  · rw [cellByte_blockWrite hb a v hk, if_neg h]
  · obtain ⟨i, rfl⟩ : ∃ i, k = .rom i := by simpa [StorageCell.Writable] using hk
    exact cellByte_rom_blockWrite b a v i

end Sys2Proof.Machine
end

section
/-! PROOFS. The invariant (10_state.md sections 2 and 3): it holds at creation, every command keeps it, so it holds in
every reachable state. -/

namespace Sys2Proof.Machine

/-! ## The block -/

theorem BlockState.reset_inv : BlockState.reset.Inv where
  vramWf := rfl
  vramSize := rfl
  wramWf := rfl
  wramSize := rfl
  oamWf := rfl
  oamSize := rfl
  hramWf := rfl
  hramSize := rfl
  cart := fun _ h => nomatch h

/-- An empty slot or a consistent cartridge in it keeps the invariant of the block. -/
theorem BlockState.Inv.setSlot {b : BlockState} (hb : b.Inv) {sl : Slot} (h : ∀ c, sl = .loaded c → c.Consistent) :
    (b.setSlot sl).Inv :=
  { hb with cart := h }

/-- An offset in a region is inside an array as long as the region. -/
theorem offset_lt_size {a : Addr} {k : RegionKind} (h : region a = k) {m : Memory} {n : Nat} (hm : m.size = n)
    (hn : k.last < k.first + n) : a.toNat - k.first < m.size := by
  obtain ⟨lo, hi⟩ := (region_eq_iff a k).mp h
  omega

/-- A byte written in the RAM of a consistent cartridge leaves it consistent: its ROM and header are untouched. -/
theorem Cart.Consistent.setRam {c : Cart} (hc : c.Consistent) {o : Nat} (ho : o < c.ram.size) (v : Byte) :
    Cart.Consistent { c with ram := c.ram.set o v } :=
  { hc with ramWf := Memory.set_wf v hc.ramWf ho }

/-- A bus write keeps the invariant of the block: the offset it writes is inside the region's array. -/
theorem BlockState.Inv.blockWrite {b : BlockState} (hb : b.Inv) (a : Addr) (v : Byte) : (blockWrite b a v).Inv where
  vramWf := by
    rw [blockWrite_vram]
    split
    · next hr => exact Memory.set_wf v hb.vramWf (offset_lt_size hr hb.vramSize (by decide))
    · exact hb.vramWf
  vramSize := (blockWrite_vram_size b a v).trans hb.vramSize
  wramWf := by
    rw [blockWrite_wram]
    split
    · next hr => exact Memory.set_wf v hb.wramWf (offset_lt_size hr hb.wramSize (by decide))
    · split
      · next hr => exact Memory.set_wf v hb.wramWf (offset_lt_size hr hb.wramSize (by decide))
      · exact hb.wramWf
  wramSize := (blockWrite_wram_size b a v).trans hb.wramSize
  oamWf := by
    rw [blockWrite_oam]
    split
    · next hr => exact Memory.set_wf v hb.oamWf (offset_lt_size hr hb.oamSize (by decide))
    · exact hb.oamWf
  oamSize := (blockWrite_oam_size b a v).trans hb.oamSize
  hramWf := by
    rw [blockWrite_hram]
    split
    · next hr => exact Memory.set_wf v hb.hramWf (offset_lt_size hr hb.hramSize (by decide))
    · exact hb.hramWf
  hramSize := (blockWrite_hram_size b a v).trans hb.hramSize
  cart := by
    intro c' h'
    rcases blockWrite_slot_cases b a v with ⟨c, o, hs, hc, h⟩ | ⟨-, h⟩
    · obtain ⟨-, -, ho⟩ := (cell_eq_some_iff b a _).mp hc
      obtain rfl : _ = c' := Slot.loaded.inj (h.symm.trans h')
      exact (hb.cart c hs).setRam (BlockState.ramSize_of_loaded hs ▸ ho) v
    · exact hb.cart c' (h ▸ h')

/-! ## The delegate -/

theorem IoState.CalledInRegion.busRead {io : IoState} (hio : io.CalledInRegion) (b : BlockState) (a : Addr) :
    (busRead b io a).2.CalledInRegion := by
  by_cases hr : region a = .io
  · rw [busRead_of_io b io hr]
    cases io with
    | placeholder => trivial
    | external history => exact List.forall_mem_cons.mpr ⟨hr, hio⟩
  · rwa [busRead_snd_of_ne_io b io hr]

theorem IoState.CalledInRegion.delegateWrite {io : IoState} (hio : io.CalledInRegion) (a : Addr) (v : Byte) :
    (delegateWrite io a v).CalledInRegion := by
  by_cases hr : region a = .io
  · rw [delegateWrite_of_io io v hr]
    cases io with
    | placeholder => trivial
    | external history => exact List.forall_mem_cons.mpr ⟨hr, hio⟩
  · rwa [delegateWrite_of_ne_io io v hr]

/-! ## The loader -/

/-- The cartridge made of an image that passed the checks of R100 is consistent (R105–R109). -/
theorem cartOf_consistent {rom : Memory} (hwf : rom.wf = true) (hsize : Config.minRomBytes ≤ rom.size)
    (hsum : verifyChecksum rom = true) : (cartOf rom).Consistent where
  romWf := hwf
  ramWf := rfl
  hdr := rfl
  romSize := hsize
  raw := rfl
  checksum := hsum
  ramSize := rfl

/-- Every input a CLOAD can take is within R101's side condition. -/
theorem State.Inv.nextLoad_wf {s : State} (h : s.Inv) : s.nextLoad.src.wf = true := by
  unfold State.nextLoad
  split
  · exact inputOfDraw_wf _
  · next inp rest hl => exact h.loads inp (by simp [hl])

/-- What a successful load puts in the slot is consistent. -/
theorem loadCart_consistent {inp : LoadInput} (hwf : inp.src.wf = true) {c : Cart} {unk : Bool}
    (h : loadCart inp = .ok (c, unk)) : c.Consistent := by
  obtain ⟨length, bytes, hsrc, hmin, -, hlen, hsum, rfl, -⟩ := loadCart_ok h
  have hbytes : bytes.wf = true ∧ bytes.size ≤ length := by simpa [hsrc, ImageSource.wf] using hwf
  exact cartOf_consistent hbytes.1 (hmin.trans hlen) hsum

/-! ## The machine -/

/-- A response leaves the invariant as it was. -/
theorem State.Inv.setResp {s : State} (h : s.Inv) (r : Resp) : (s.setResp r).Inv := ⟨h.block, h.io, h.loads⟩
theorem State.Inv.setCommands {s : State} (h : s.Inv) (ws : List Command) : (s.setCommands ws).Inv :=
  ⟨h.block, h.io, h.loads⟩
theorem State.Inv.setBlock {s : State} (h : s.Inv) {b : BlockState} (hb : b.Inv) : (s.setBlock b).Inv :=
  ⟨hb, h.io, h.loads⟩
theorem State.Inv.setIo {s : State} (h : s.Inv) {io : IoState} (hio : io.CalledInRegion) : (s.setIo io).Inv :=
  ⟨h.block, hio, h.loads⟩
theorem State.Inv.takeLoad {s : State} (h : s.Inv) : s.takeLoad.Inv where
  block := s.takeLoad_block ▸ h.block
  io := s.takeLoad_io ▸ h.io
  loads := fun inp hinp => h.loads inp (List.mem_of_mem_tail (s.takeLoad_loads ▸ hinp))

/-- Every command keeps the invariant. -/
theorem State.Inv.exec {i : Instr} {s t : State} (h : s.Inv) (he : exec i s = .next t) : t.Inv := by
  rcases exec_cases he with ⟨a, -, rfl⟩ | ⟨a, v, -, rfl⟩ | ⟨-, rfl⟩ | ⟨-, rfl⟩ | ⟨r, rfl, -⟩
  · exact (h.setIo (h.io.busRead s.block a)).setResp _
  · exact ((h.setBlock (h.block.blockWrite a v)).setIo (h.io.delegateWrite a v)).setResp _
  · rcases finishLoad_cases s.takeLoad (loadCart s.nextLoad) with ⟨c, unk, hload, ht⟩ | ⟨e, -, ht⟩ <;> rw [ht]
    · refine (h.takeLoad.setBlock (h.takeLoad.block.setSlot ?_)).setResp _
      exact fun _ hc => Slot.loaded.inj hc ▸ loadCart_consistent h.nextLoad_wf hload
    · exact h.takeLoad.setResp _
  · exact (h.setBlock (h.block.setSlot (sl := .empty) fun _ hc => nomatch hc)).setResp _
  · exact h.setResp r

/-- Settles O57: every array is zeroed at its size, the slot is empty, nothing is called or presented. -/
theorem invariantHoldsAtCreation : Obligations.InvariantHoldsAtCreation := by
  rintro s (rfl | rfl)
  · exact ⟨BlockState.reset_inv, List.forall_mem_nil _, List.forall_mem_nil _⟩
  · exact ⟨BlockState.reset_inv, trivial, List.forall_mem_nil _⟩

/-- Settles O58: a step is a command on the state without its word, and every command keeps the invariant. -/
theorem everyStepKeepsTheInvariant : Obligations.EveryStepKeepsTheInvariant := by
  intro s t h hstep
  obtain ⟨w, rest, i, -, -, he⟩ := step_cases hstep
  exact (h.setCommands rest).exec he

/-- The invariant holds in every reachable state (O57 and O58). -/
theorem Reachable.inv {s : State} (h : Reachable s) : s.Inv := by
  induction h with
  | created s hc => exact invariantHoldsAtCreation s hc
  | issue s w _ ih => exact ih.setCommands _
  | present s inp hwf _ ih =>
    refine ⟨ih.block, ih.io, fun inp' hinp => ?_⟩
    rcases List.mem_append.mp hinp with hold | hnew
    · exact ih.loads inp' hold
    · exact List.mem_singleton.mp hnew ▸ hwf
  | step s t _ hs ih => exact everyStepKeepsTheInvariant s t ih hs

/-- The snapshot of a consistent cartridge is its ROM's bytes from 0x0100 up (R29). -/
theorem Cart.Consistent.raw_getD {c : Cart} (hc : c.Consistent) {j : Nat} (hj : j < 0x50) :
    c.raw.getD j 0x00 = c.rom.get (0x0100 + j) := by
  rw [hc.raw]
  exact c.rom.slice_getD 0x0100 0x50 j hj

/-- Settles O59: the facts are those of the invariant; a consistent ROM is not empty, and its checksum verifies. -/
theorem reachableCartridgesAreConsistent : Obligations.ReachableCartridgesAreConsistent := by
  intro s hs
  have hcart := hs.inv.block.cart
  refine ⟨fun c hc => ?_, fun h => BlockState.loaded_of_slot_ne_empty fun he => h (BlockState.romSize_of_empty he),
    fun ⟨c, hc⟩ => ?_⟩
  · have hcons := hcart c hc
    refine ⟨hcons.hdr, hcons.romSize, ?_, fun j => hcons.raw_getD, hcons.checksum, hcons.ramSize, ?_⟩
    · rw [hcons.raw]
      exact Memory.slice_length _ _ _
    · rw [exec_hchk_loaded hc, hcons.checksum]
      rfl
  · have hsize : 0x0150 ≤ c.rom.size := (hcart c hc).romSize
    rw [BlockState.romSize_of_loaded hc]
    omega

/-- Settles O46: ROM 0x014B is byte 0x4B of the snapshot, and a licence that is not the new pair is one byte. -/
theorem licenseRegistryIsReadableAt014B : Obligations.LicenseRegistryIsReadableAt014B := by
  intro s c h hs
  have hc := h.block.cart c hs
  have hold : matchingIsOld c = true ↔ c.raw.getD 0x4B 0x00 ≠ 0x33 := bne_iff_ne
  refine ⟨exec_rd_of_busRead ?_, hold, fun hset => ?_⟩
  · have hlt : 0x014B < c.rom.size := Nat.lt_of_lt_of_le (by decide) hc.romSize
    rw [busRead_of_rom _ _ (region_of_le_7FFF (by decide)), hc.raw_getD (by decide)]
    exact congrArg (·, s.io) (BlockState.romByte_of_lt hs hlt)
  · have hlicense : c.hdr.license = (fieldByte c.raw .oldLicense 0).setWidth 16 := by
      rw [hc.hdr]
      exact resolveLicense_of_ne_sentinel (hold.mp hset)
    rw [hlicense, BitVec.toNat_setWidth_of_le (by decide)]
    exact Nat.le_of_lt_succ (fieldByte c.raw .oldLicense 0).isLt

end Sys2Proof.Machine
end

section
/-! PROOFS. The frame of WR and the read after a write (43_bus_dispatcher.md section 4; 20_memory.md R61): what a write
leaves unchanged, that repeating it changes nothing, and that a cell keeps its byte until it is written again. -/

namespace Sys2Proof.Machine

/-! ## The frame of WR -/

/-- An address that does not reach the cell a write stores to reads as before, outside the I/O region. -/
theorem busRead_blockWrite_of_ne {b : BlockState} (hb : b.Inv) {a a' : Addr} (v : Byte) (io io' : IoState)
    (hio : region a' ≠ .io) (h : cell b a' = none ∨ cell b a' ≠ cell b a) :
    (busRead (blockWrite b a v) io' a').1 = (busRead b io a').1 := by
  cases hc : cell b a' with
  | none => rw [busRead_of_cell_eq_none io hc hio, busRead_of_cell_eq_none io' (by simpa using hc) hio]
  | some k =>
    have hne : cell b a ≠ some k := by
      rintro ha
      simp [hc, ha] at h
    rw [busRead_of_cell io hc, busRead_of_cell io' ((cell_blockWrite b a v a').trans hc),
      cellByte_blockWrite_of_ne hb v hne]

/-- A write leaves a loaded cartridge as it was but for the byte of its RAM the address reaches. -/
theorem blockWrite_loaded {b : BlockState} (hb : b.Inv) (a : Addr) (v : Byte) {c : Cart} (hs : b.slot = .loaded c) :
    ∃ c', (blockWrite b a v).slot = .loaded c' ∧ c'.rom = c.rom ∧ c'.raw = c.raw ∧ c'.hdr = c.hdr ∧
      c'.ram.size = c.ram.size ∧ ∀ o, cell b a ≠ some (.ram o) → c'.ram.get o = c.ram.get o := by
  rcases blockWrite_slot_cases b a v with ⟨c₀, o, hs₀, hc, h⟩ | ⟨-, h⟩
  · obtain rfl : c₀ = c := Slot.loaded.inj (hs₀.symm.trans hs)
    refine ⟨_, h, rfl, rfl, rfl, rfl, fun o' ho' => ?_⟩
    rw [Memory.get_set (hb.cart c₀ hs).ramWf, if_neg]
    rintro rfl
    exact ho' hc
  · exact ⟨c, h.trans hs, rfl, rfl, rfl, rfl, fun _ _ => rfl⟩

/-- Settles O24: field by field, with the cartridge and the reads of the other addresses from the two lemmas above. -/
theorem writeChangesOnlyItsCell : Obligations.WriteChangesOnlyItsCell := by
  intro s t a v hs he
  obtain rfl : ((s.setBlock (blockWrite s.block a v)).setIo (delegateWrite s.io a v)).setResp .none = t := by
    simpa using he
  refine ⟨fun a' hio h => ?_, fun ha => ?_, delegateWrite_of_ne_io s.io v, blockWrite_vram_size _ _ _,
    blockWrite_wram_size _ _ _, blockWrite_oam_size _ _ _, blockWrite_hram_size _ _ _,
    (blockWrite_slot_eq_empty_iff s.block a v).mpr, fun c => blockWrite_loaded hs.block a v, rfl, rfl, rfl, rfl⟩
  · rcases or_assoc.mpr h with h | hrom
    · exact busRead_blockWrite_of_ne hs.block v s.io _ hio h
    · refine State.peek_eq_of_block_eq (blockWrite_of_no_storage s.block v ?_) hio
      exact hrom.imp_right .inl
  · have hr : region a ≠ .ie := fun hr => ha (BitVec.eq_of_toNat_eq (by simpa [hr] using region_bounds a))
    exact (blockWrite_ie s.block a v).trans (if_neg hr)

/-! ## Repeated accesses -/

/-- A cartridge RAM write repeated changes nothing. -/
theorem BlockState.setRam_setRam {b : BlockState} (hb : b.Inv) (o : Nat) (v : Byte) :
    (b.setRam o v).setRam o v = b.setRam o v := by
  cases hs : b.slot with
  | empty => rw [setRam_of_empty hs, setRam_of_empty hs]
  | loaded c =>
    rcases Nat.lt_or_ge o c.ram.size with ho | ho
    · rw [setRam_of_lt hs ho, setRam_of_lt (setSlot_slot b _) (by exact ho), Memory.set_set (hb.cart c hs).ramWf ho]
      rfl
    · rw [setRam_of_ge hs ho, setRam_of_ge hs ho]

/-- A bus write repeated changes nothing: each region's array has the byte already. -/
theorem blockWrite_blockWrite {b : BlockState} (hb : b.Inv) (a : Addr) (v : Byte) :
    blockWrite (blockWrite b a v) a v = blockWrite b a v := by
  rcases blockWrite_cases b a v with ⟨hr, h⟩ | ⟨hr, h⟩ | ⟨hr, h⟩ | ⟨hr, h⟩ | ⟨hr, h⟩ | ⟨hr, h⟩ | ⟨hr, h⟩ | ⟨-, h⟩
  · rw [h, blockWrite_of_vram _ v hr]
    have hlt := offset_lt_size hr hb.vramSize (by decide)
    exact congrArg (fun m => { b with vram := m }) (Memory.set_set hb.vramWf hlt v)
  · rw [h, blockWrite_of_eram _ v hr, BlockState.setRam_setRam hb]
  · rw [h, blockWrite_of_wram _ v hr]
    have hlt := offset_lt_size hr hb.wramSize (by decide)
    exact congrArg (fun m => { b with wram := m }) (Memory.set_set hb.wramWf hlt v)
  · rw [h, blockWrite_of_echo _ v hr]
    have hlt := offset_lt_size hr hb.wramSize (by decide)
    exact congrArg (fun m => { b with wram := m }) (Memory.set_set hb.wramWf hlt v)
  · rw [h, blockWrite_of_oam _ v hr]
    have hlt := offset_lt_size hr hb.oamSize (by decide)
    exact congrArg (fun m => { b with oam := m }) (Memory.set_set hb.oamWf hlt v)
  · rw [h, blockWrite_of_hram _ v hr]
    have hlt := offset_lt_size hr hb.hramSize (by decide)
    exact congrArg (fun m => { b with hram := m }) (Memory.set_set hb.hramWf hlt v)
  · rw [h, blockWrite_of_ie _ v hr]
    rfl
  · rw [h, h]

/-- Settles O26: outside the I/O region neither access calls the delegate, and a second write finds its byte stored. -/
theorem busAccessesAreIdempotent : Obligations.BusAccessesAreIdempotent := by
  intro s a v hs hio
  refine ⟨⟨_, exec_wr_of_blockWrite hio rfl, exec_wr_of_blockWrite hio (blockWrite_blockWrite hs.block a v)⟩, ?_⟩
  have hread := fun u : State => exec_rd_of_busRead (Prod.ext rfl (busRead_snd_of_ne_io u.block u.io hio))
  exact ⟨_, hread s, hread _⟩

/-! ## Read after write -/

/-- The end of a load changes nothing of the block but the slot. -/
theorem State.finishLoad_block (s : State) (r : Except LoadStatus (Cart × Bool)) :
    (s.finishLoad r).block = s.block.setSlot (s.finishLoad r).block.slot := by
  rcases finishLoad_cases s r with ⟨c, unk, -, h⟩ | ⟨e, -, h⟩ <;> rw [h] <;> rfl

/-- Only the cells of a cartridge depend on the slot. -/
theorem cell_setSlot_iff {k : StorageCell} (hrom : k.Writable) (hram : ∀ o, k ≠ .ram o) (b : BlockState) (sl : Slot)
    (a : Addr) : cell (b.setSlot sl) a = some k ↔ cell b a = some k := by
  rw [cell_eq_some_iff, cell_eq_some_iff]
  cases k with
  | rom i => exact absurd rfl (hrom i)
  | ram o => exact absurd rfl (hram o)
  | _ => exact Iff.rfl

theorem cellByte_setSlot {k : StorageCell} (hrom : k.Writable) (hram : ∀ o, k ≠ .ram o) (b : BlockState)
    (sl : Slot) : (b.setSlot sl).cellByte k = b.cellByte k := by
  cases k with
  | rom i => exact absurd rfl (hrom i)
  | ram o => exact absurd rfl (hram o)
  | _ => rfl

/-- The commands that leave a cell and its addresses alone: any but a write to the cell and, for a cartridge RAM cell,
any but CLOAD and CUNLOAD. -/
def LeavesCell (b : BlockState) (k : StorageCell) (i : Instr) : Prop :=
  (∀ a v, i = .wr a v → cell b a ≠ some k) ∧ ((∃ o, k = .ram o) → i ≠ .cload ∧ i ≠ .cunload)

/-- Two blocks hold the same byte in a cell, and the same addresses reach it. -/
def SameCell (k : StorageCell) (b b' : BlockState) : Prop :=
  b'.cellByte k = b.cellByte k ∧ ∀ a, cell b' a = some k ↔ cell b a = some k

theorem SameCell.refl (k : StorageCell) (b : BlockState) : SameCell k b b := ⟨rfl, fun _ => Iff.rfl⟩

theorem SameCell.trans {k : StorageCell} {b b' b'' : BlockState} (h : SameCell k b b') (h' : SameCell k b' b'') :
    SameCell k b b'' := ⟨h'.1.trans h.1, fun a => (h'.2 a).trans (h.2 a)⟩

/-- A loader command and a cell of the console: the slot is not part of it. -/
theorem SameCell.setSlot {k : StorageCell} (hrom : k.Writable) (hram : ∀ o, k ≠ .ram o) (b : BlockState)
    (sl : Slot) : SameCell k b (b.setSlot sl) := ⟨cellByte_setSlot hrom hram b sl, cell_setSlot_iff hrom hram b sl⟩

/-- A command that leaves a cell alone keeps its byte and its addresses. -/
theorem exec_sameCell {i : Instr} {s t : State} {k : StorageCell} (hs : s.Inv) (hk : k.Writable)
    (hi : LeavesCell s.block k i) (he : exec i s = .next t) : SameCell k s.block t.block := by
  obtain ⟨hwr, hload⟩ := hi
  rcases exec_cases he with ⟨a, -, rfl⟩ | ⟨a, v, rfl, rfl⟩ | ⟨rfl, rfl⟩ | ⟨rfl, rfl⟩ | ⟨r, rfl, -⟩
  · exact .refl k _
  · exact ⟨cellByte_blockWrite_of_ne hs.block v (hwr a v rfl), fun a' => by simp⟩
  · rw [State.finishLoad_block, State.takeLoad_block]
    exact .setSlot hk (fun o ho => (hload ⟨o, ho⟩).1 rfl) _ _
  · exact .setSlot hk (fun o ho => (hload ⟨o, ho⟩).2 rfl) _ _
  · exact .refl k _

theorem runCommands_cons {i : Instr} {s u : State} (is : List Instr) (h : exec i s = .next u) :
    runCommands (i :: is) s = runCommands is u := by
  simp [runCommands, h]

/-- The first command of a run that completes has completed. -/
theorem runCommands_cons_eq_some {i : Instr} {is : List Instr} {s t : State} (h : runCommands (i :: is) s = some t) :
    ∃ u, exec i s = .next u ∧ runCommands is u = some t := by
  unfold runCommands at h
  cases he : exec i s <;> simp [he] at h
  exact ⟨_, rfl, h⟩

/-- A run of commands that leave a cell alone keeps its byte and its addresses. -/
theorem runCommands_sameCell {k : StorageCell} (hk : k.Writable) : ∀ {is : List Instr} {s t : State}, s.Inv →
    (∀ i ∈ is, LeavesCell s.block k i) → runCommands is s = some t → SameCell k s.block t.block
  | [], s, t, _, _, h => by
    obtain rfl : s = t := by simpa [runCommands] using h
    exact .refl k _
  | i :: is, s, t, hs, hi, h => by
    obtain ⟨u, he, hrun⟩ := runCommands_cons_eq_some h
    obtain ⟨hi, his⟩ := List.forall_mem_cons.mp hi
    have hu := exec_sameCell hs hk hi he
    refine hu.trans (runCommands_sameCell hk (hs.exec he) (fun j hj => ⟨fun a v hja => ?_, (his j hj).2⟩) hrun)
    exact mt (hu.2 a).mp ((his j hj).1 a v hja)

/-- Settles O27: the write puts the byte in the cell, the run keeps the cell, and any address that reaches it reads
it. -/
theorem readReturnsTheLastWrittenByte : Obligations.ReadReturnsTheLastWrittenByte := by
  intro s t a a' v between k hs ha' ha hk hbetween hrun
  obtain ⟨u, hwr, hrun⟩ := runCommands_cons_eq_some hrun
  have hu : u.block = blockWrite s.block a' v := by
    rw [exec_wr] at hwr
    cases hwr
    rfl
  have hbyte : u.block.cellByte k = v := by rw [hu, cellByte_blockWrite hs.block a' v hk, if_pos ha']
  have hcell : ∀ b, cell u.block b = cell s.block b := fun b => by rw [hu, cell_blockWrite]
  obtain ⟨hsame, hreach⟩ := runCommands_sameCell hk (hs.exec hwr)
    (fun i hi => ⟨fun b w hb => hcell b ▸ (hbetween i hi).1 b w hb, (hbetween i hi).2⟩) hrun
  have hread := busRead_of_cell t.io ((hreach a).mpr ((hcell a).trans ha))
  exact exec_rd_of_busRead (by rw [hread, hsame, hbyte])

end Sys2Proof.Machine
end

section
/-! PROOFS. What the bus cannot see (20_memory.md R51, R52; 10_state.md section 3): states that differ only in what no
address reaches answer every bus command alike and stay so. -/

namespace Sys2Proof.Machine

/-- No address reads what two such states differ in: the ROM area ends at index 0x7FFF, cartridge RAM at 0x1FFF. -/
theorem BusEquivalent.busRead_eq {s t : State} (h : BusEquivalent s t) (a : Addr) :
    busRead s.block s.io a = busRead t.block t.io a := by
  have hbounds := region_bounds a
  cases hr : region a <;> simp only [hr] at hbounds
  case rom0 => rw [busRead_of_rom _ _ (.inl hr), busRead_of_rom _ _ (.inl hr), h.io, h.rom _ (by omega)]
  case romX => rw [busRead_of_rom _ _ (.inr hr), busRead_of_rom _ _ (.inr hr), h.io, h.rom _ (by omega)]
  case eram => rw [busRead_of_eram _ _ hr, busRead_of_eram _ _ hr, h.io, h.ram _ (by omega)]
  all_goals simp only [busRead, hr, h.vram, h.wram, h.oam, h.hram, h.ie, h.io]

/-- A write reaches the same cartridge RAM byte in both, where it reaches one the bus can read. -/
theorem BusEquivalent.cell_ram_iff {s t : State} (h : BusEquivalent s t) (a : Addr) {o : Nat} (ho : o < 0x2000) :
    cell s.block a = some (.ram o) ↔ cell t.block a = some (.ram o) := by
  simp only [cell_eq_some_iff, StorageCell.ReachedFrom, h.ramSize o ho]

/-- After the same RD such states respond the same and are such states again. -/
theorem BusEquivalent.exec_rd {s t : State} (h : BusEquivalent s t) (a : Addr) :
    ∃ s' t', exec (.rd a) s = .next s' ∧ exec (.rd a) t = .next t' ∧ BusEquivalent s' t' ∧ s'.resp = t'.resp := by
  refine ⟨_, _, Machine.exec_rd a s, Machine.exec_rd a t, ?_, ?_⟩
  · exact { h with io := congrArg Prod.snd (h.busRead_eq a) }
  · simp only [State.setResp_resp, h.busRead_eq a]

/-- After the same WR such states respond the same and are such states again: each field the bus can read is written
alike. -/
theorem BusEquivalent.exec_wr {s t : State} (h : BusEquivalent s t) (hs : s.Inv) (ht : t.Inv) (a : Addr) (v : Byte) :
    ∃ s' t', exec (.wr a v) s = .next s' ∧ exec (.wr a v) t = .next t' ∧ BusEquivalent s' t' ∧ s'.resp = t'.resp := by
  refine ⟨_, _, Machine.exec_wr a v s, Machine.exec_wr a v t, ?_, rfl⟩
  constructor <;> simp only [State.setResp_block, State.setResp_io, State.setIo_block, State.setIo_io,
    State.setBlock_block, blockWrite_romByte, blockWrite_ramSize]
  case vram => rw [blockWrite_vram, blockWrite_vram, h.vram]
  case wram => rw [blockWrite_wram, blockWrite_wram, h.wram]
  case oam => rw [blockWrite_oam, blockWrite_oam, h.oam]
  case hram => rw [blockWrite_hram, blockWrite_hram, h.hram]
  case ie => rw [blockWrite_ie, blockWrite_ie, h.ie]
  case io => rw [h.io]
  case rom => exact h.rom
  case ramSize => exact h.ramSize
  case ram =>
    intro o ho
    simp only [blockWrite_ramByte hs.block, blockWrite_ramByte ht.block, h.cell_ram_iff a ho, h.ram o ho]

theorem BusEquivalent.exec {s t : State} (h : BusEquivalent s t) (hs : s.Inv) (ht : t.Inv) {i : Instr}
    (hi : isBusCommand i = true) :
    ∃ s' t', exec i s = .next s' ∧ exec i t = .next t' ∧ BusEquivalent s' t' ∧ s'.resp = t'.resp := by
  cases i with
  | rd a => exact h.exec_rd a
  | wr a v => exact h.exec_wr hs ht a v
  | _ => simp [isBusCommand] at hi

/-- Settles O54: by induction on the run, with the responses equal from the first command on. -/
theorem busRunsCannotSeeHiddenCartridgeState : Obligations.BusRunsCannotSeeHiddenCartridgeState := by
  intro s t is hs ht h his
  induction is generalizing s t with
  | nil => exact ⟨s, t, rfl, rfl, h, fun hne => absurd rfl hne⟩
  | cons i is ih =>
    obtain ⟨hi, his⟩ := List.forall_mem_cons.mp his
    obtain ⟨s₁, t₁, hes, het, h₁, hresp₁⟩ := h.exec hs ht hi
    obtain ⟨s₂, t₂, hrs, hrt, h₂, hresp₂⟩ := ih s₁ t₁ (hs.exec hes) (ht.exec het) h₁ his
    refine ⟨s₂, t₂, (runCommands_cons is hes).trans hrs, (runCommands_cons is het).trans hrt, h₂, fun _ => ?_⟩
    rcases eq_or_ne is [] with rfl | hne
    · obtain rfl : s₁ = s₂ := by simpa [runCommands] using hrs
      obtain rfl : t₁ = t₂ := by simpa [runCommands] using hrt
      exact hresp₁
    · exact hresp₂ hne

end Sys2Proof.Machine
end

section
/-! PROOFS. The header checksum as a number and what it depends on (42_header_decoder.md section 2; 90_conflicts.md C1,
C2). -/

namespace Sys2Proof.Machine

/-! ## The closed form -/

/-- One step of the recurrence as integers modulo 256. -/
theorem toNat_sub_sub_one (c v : Byte) : ((c - v - 1).toNat : Int) = ((c.toNat : Int) - v.toNat - 1) % 256 := by
  bv_omega

/-- Folding the recurrence over bytes takes their sum and their number off the start value, modulo 256. -/
theorem toNat_foldl_sub_sub_one (bs : List Byte) (c : Byte) :
    ((bs.foldl (fun c v => c - v - 1) c).toNat : Int) =
      ((c.toNat : Int) - (bs.map fun v => (v.toNat : Int)).sum - bs.length) % 256 := by
  induction bs generalizing c with
  | nil =>
    have := c.isLt
    simp only [List.foldl_nil, List.map_nil, List.sum_nil, List.length_nil]
    omega
  | cons v bs ih =>
    rw [List.foldl_cons, ih, toNat_sub_sub_one, List.map_cons, List.sum_cons, List.length_cons]
    push_cast
    omega

/-- Settles O40: the fold starts at 0 and the slice has 25 bytes. -/
theorem checksumClosedForm : Obligations.ChecksumClosedForm := by
  intro rom
  rw [headerChecksum, toNat_foldl_sub_sub_one, Memory.slice_length]
  rfl

/-! ## One byte changed -/

/-- The fold of the recurrence over the `n` bytes of an array from `lo` up. -/
def checksumOf (m : Memory) (lo n : Nat) : Byte := (m.slice lo n).foldl (fun c v => c - v - 1) 0x00

theorem headerChecksum_eq (rom : Memory) : headerChecksum rom = checksumOf rom 0x0134 25 := rfl

theorem checksumOf_succ (m : Memory) (lo n : Nat) :
    checksumOf m lo (n + 1) = checksumOf m lo n - m.get (lo + n) - 1 := by
  rw [checksumOf, Memory.slice_succ, List.foldl_append]
  rfl

section
variable {m : Memory} (hm : m.wf = true) {i lo n : Nat} (v : Byte)
include hm

/-- A byte outside the slice does not enter the fold. -/
theorem checksumOf_set_of_outside (hi : i < lo ∨ lo + n ≤ i) : checksumOf (m.set i v) lo n = checksumOf m lo n := by
  induction n with
  | zero => rfl
  | succ n ih => rw [checksumOf_succ, checksumOf_succ, ih (by omega), Memory.get_set hm, if_neg (by omega)]

/-- A changed byte of the slice changes the fold: what is subtracted before and after it is the same. -/
theorem checksumOf_set_of_inside (hlo : lo ≤ i) (hn : i < lo + n) (hv : v ≠ m.get i) :
    checksumOf (m.set i v) lo n ≠ checksumOf m lo n := by
  induction n with
  | zero => omega
  | succ n ih =>
    rw [checksumOf_succ, checksumOf_succ, Memory.get_set hm, ne_eq, sub_left_inj]
    rcases eq_or_ne (lo + n) i with rfl | hne
    · rwa [if_pos rfl, checksumOf_set_of_outside hm v (.inr le_rfl), sub_right_inj]
    · rw [if_neg hne, sub_left_inj]
      exact ih (by omega)

end

theorem verifyChecksum_eq_true_iff (rom : Memory) :
    verifyChecksum rom = true ↔ checksumOf rom 0x0134 25 = rom.get 0x014D := by
  simp [verifyChecksum, headerChecksum_eq]

/-- Settles O41: of the fold and the stored byte 0x014D, one changed byte of the range changes exactly one, and a byte
outside changes neither. -/
theorem singleByteChangeBreaksTheChecksum : Obligations.SingleByteChangeBreaksTheChecksum := by
  refine fun rom i v hm => ⟨fun lo hi hok hv => ?_, fun hi => ?_⟩
  · rw [verifyChecksum_eq_true_iff] at hok
    rw [Bool.eq_false_iff, ne_eq, verifyChecksum_eq_true_iff, Memory.get_set hm]
    rcases eq_or_ne 0x014D i with rfl | hne
    · rw [if_pos rfl, checksumOf_set_of_outside hm v (.inr (by decide)), hok]
      exact hv.symm
    · rw [if_neg hne, ← hok]
      exact checksumOf_set_of_inside hm v lo (by omega) hv
  · rw [Bool.eq_iff_iff, verifyChecksum_eq_true_iff, verifyChecksum_eq_true_iff, Memory.get_set hm, if_neg (by omega),
      checksumOf_set_of_outside hm v (by omega)]

end Sys2Proof.Machine
end

section
/-! PROOFS. The frames of the whole machine (10_state.md section 6; 43_bus_dispatcher.md sections 2 to 4): who changes
the block and the delegate, the fixed answers of the placeholder, and what CLOAD leaves alone. -/

namespace Sys2Proof.Machine

/-! ## Who changes the block and the delegate -/

/-- Settles O52: such a command is an RD, which can change the delegate only, or it only responds. -/
theorem onlyStoringCommandsChangeTheBlock : Obligations.OnlyStoringCommandsChangeTheBlock := by
  intro i s t hwr hload hunload he
  rcases exec_cases he with ⟨a, rfl, rfl⟩ | ⟨a, v, hi, -⟩ | ⟨hi, -⟩ | ⟨hi, -⟩ | ⟨r, rfl, -⟩
  · exact ⟨rfl, fun _ hb => State.peek_eq_of_block_eq (by simp) hb, rfl, rfl, rfl,
      fun hio => busRead_snd_of_ne_io _ _ (hio a rfl)⟩
  · exact absurd hi (hwr a v)
  · exact absurd hi hload
  · exact absurd hi hunload
  · exact ⟨rfl, fun _ hb => State.peek_eq_of_block_eq (by simp) hb, rfl, rfl, rfl, fun _ => rfl⟩

/-- The end of a load leaves the delegate and the ports as they were. -/
@[simp] theorem State.finishLoad_io (s : State) (r : Except LoadStatus (Cart × Bool)) : (s.finishLoad r).io = s.io := by
  rcases finishLoad_cases s r with ⟨c, unk, -, h⟩ | ⟨e, -, h⟩ <;> rw [h] <;> rfl
@[simp] theorem State.finishLoad_commands (s : State) (r : Except LoadStatus (Cart × Bool)) :
    (s.finishLoad r).commands = s.commands := by
  rcases finishLoad_cases s r with ⟨c, unk, -, h⟩ | ⟨e, -, h⟩ <;> rw [h] <;> rfl
@[simp] theorem State.finishLoad_loads (s : State) (r : Except LoadStatus (Cart × Bool)) :
    (s.finishLoad r).loads = s.loads := by
  rcases finishLoad_cases s r with ⟨c, unk, -, h⟩ | ⟨e, -, h⟩ <;> rw [h] <;> rfl

/-- Settles O53: of the commands only RD and WR touch the delegate, and outside the I/O region they do not. -/
theorem delegateIsCalledOnlyForIo : Obligations.DelegateIsCalledOnlyForIo := by
  intro i s t he hne
  rcases exec_cases he with ⟨a, rfl, rfl⟩ | ⟨a, v, rfl, rfl⟩ | ⟨-, rfl⟩ | ⟨-, rfl⟩ | ⟨r, rfl, -⟩
  · have hr : region a = .io := by
      by_contra hr
      exact hne (busRead_snd_of_ne_io _ _ hr)
    obtain ⟨lo, hi⟩ := (region_eq_iff a .io).mp hr
    exact ⟨a, lo, hi, .inl ⟨rfl, congrArg Prod.snd (busRead_of_io s.block s.io hr)⟩⟩
  · have hr : region a = .io := by
      by_contra hr
      exact hne (delegateWrite_of_ne_io _ v hr)
    obtain ⟨lo, hi⟩ := (region_eq_iff a .io).mp hr
    exact ⟨a, lo, hi, .inr ⟨v, rfl, delegateWrite_of_io s.io v hr⟩⟩
  · simp at hne
  · exact absurd rfl hne
  · exact absurd rfl hne

/-- Settles O28: the delegate's answers with the placeholder in its place, with addresses for their numbers. -/
theorem placeholderDelegateAnswers : Obligations.PlaceholderDelegateAnswers := by
  intro s a v hp lo hi
  refine ⟨(ioWriteIsTheDelegates s a v lo hi).trans ?_, ((ioReadIsTheDelegates s a).1 lo hi).trans ?_⟩
  · rw [hp, IoState.write, ← hp]
  · have hiff : ∀ c : Addr, a = c ↔ a.toNat = c.toNat := fun c => BitVec.toNat_inj.symm
    simp only [hp, IoState.read, placeholderByte, hiff]
    rfl

/-! ## CLOAD -/

/-- Settles O32: the two ends of a load, each with its status; both keep everything but the slot. -/
theorem loadAlwaysCompletes : Obligations.LoadAlwaysCompletes := by
  intro s
  have hblock := State.finishLoad_block s.takeLoad (loadCart s.nextLoad)
  rw [State.takeLoad_block] at hblock
  rcases finishLoad_cases s.takeLoad (loadCart s.nextLoad) with ⟨c, unk, -, ht⟩ | ⟨e, -, ht⟩
  · exact ⟨_, .ok, unk, exec_cload s, by rw [ht]; rfl, hblock, by simp, by simp, by simp, fun h => absurd rfl h⟩
  · exact ⟨_, e, false, exec_cload s, by rw [ht]; rfl, hblock, by simp, by simp, by simp, fun _ => ⟨by simp [ht], rfl⟩⟩

end Sys2Proof.Machine
end

section
/-! PROOFS. The 16-bit subtract predicates (44_utility.md R227, R228) as numbers. -/

namespace Sys2Proof.Machine

theorem halfCarrySub16_eq (a b : Word) : halfCarrySub16 a b = decide (a.toNat % 4096 < b.toNat % 4096) := by
  simp only [halfCarrySub16, BitVec.lt_def, toNat_extractLsb'_zero, Nat.reducePow]

theorem carrySub16_eq (a b : Word) : carrySub16 a b = decide (a.toNat < b.toNat) := rfl

/-- Settles O50: as on bytes, with the operands the whole of `A` and `B`. -/
theorem subtractPredicatesOnWords : Obligations.SubtractPredicatesOnWords := by
  intro a b s
  rw [← halfCarrySub16_eq, ← carrySub16_eq]
  exact ⟨encode_toNat _, encode_toNat _, exec_hcsub16 a b s, exec_csub16 a b s⟩

end Sys2Proof.Machine
end

section
/-! PROOFS. The fixed facts of the header layout and of console creation, which evaluate (10_state.md sections 3 and
7). -/

namespace Sys2Proof.Machine

/-- Settles O36: the layout is one table, and the decoder reads through it. -/
theorem headerFieldsTileTheHeader : Obligations.HeaderFieldsTileTheHeader :=
  ⟨rfl, by decide, rfl, rfl, fun _ => ⟨rfl, rfl, rfl, rfl, fun _ => rfl, rfl, rfl, rfl, rfl⟩⟩

/-- Settles O56: nothing is listed in the arrays, so every index reads the unlisted byte. -/
theorem creationStateIsZeroAndEmpty : Obligations.CreationStateIsZeroAndEmpty :=
  ⟨rfl, rfl, rfl, rfl, fun _ => ⟨rfl, rfl, rfl, rfl⟩, rfl, rfl⟩

end Sys2Proof.Machine
end
